-- ==== Sys2Proof/Word.lean ====
section
/-! DEFINITION. The widths of the spec's values (00_scope.md R10, R11). All are unsigned. -/

namespace Sys2Proof

/-- `u8`: a transported, status or command byte (R11). -/
abbrev Byte := BitVec 8

/-- `u16`: the CRC accumulator and every checksum value (R11). -/
abbrev HalfWord := BitVec 16

/-- `u32`: a command word (R11, 30_encoding.md R45). -/
abbrev Word := BitVec 32

end Sys2Proof
end

