-- ==== Sys2Proof/Config.lean ====
section
/-! DEFINITION. What the spec fixes as parameters (00_scope.md R8), what it leaves open (R9), and the
free values of the peer-device oracle (41_transport.md R83). An `opaque` constant has no body: no
proof can learn its value. -/

namespace Sys2Proof

/-- The outcome of one exchange, chosen by the peer-device oracle (41_transport.md R83). -/
inductive PeerOutcome where
  /-- Every slot completed, with the bytes received. -/
  | ok (rx : List Byte)
  /-- The exchange did not complete within `TRANSPORT_TIMEOUT`; nothing is delivered. -/
  | timeout
  /-- The transport reported a fault; nothing is delivered. -/
  | fault
deriving DecidableEq, Repr, Inhabited

/-- Which part of a transaction an exchange is (41_transport.md R79). -/
inductive TransferKind where
  /-- A command phase (R88). -/
  | command
  /-- A data phase (R90). -/
  | data
deriving DecidableEq, Repr, Inhabited

/-- One exchange that went over the link. After a timeout or fault the device may have received any
prefix of `tx`; which one is not recorded (20_memory.md R36). -/
structure Transfer where
  kind : TransferKind
  tx : List Byte
  outcome : PeerOutcome
deriving DecidableEq, Repr, Inhabited

/-- The order of a byte's bits on the wire; not observable at byte level (20_memory.md R32). -/
inductive WireBitOrder where
  | msbFirst
  | lsbFirst
deriving DecidableEq, Repr, Inhabited

namespace Config

/-- `CRC_POLY_REFLECTED` (R8). -/
def crcPolyReflected : HalfWord := 0xA001#16
/-- `CRC_INIT` (R8). -/
def crcInitValue : HalfWord := 0xFFFF#16
/-- `READY_CODE` (R8). -/
def readyCode : Byte := 0xF3#8
/-- `BUSY_CODE` (R8). -/
def busyCode : Byte := 0x31#8
/-- `CMD_PHASE_LEN` (R8). -/
def cmdPhaseLen : Nat := 1
/-- `POWER_STATUS_LEN` (R8). -/
def powerStatusLen : Nat := 6
/-- `HIST_FRAME_LEN` (R8). -/
def histFrameLen : Nat := 86
/-- `HIST_COVERED_LEN` (R8). -/
def histCoveredLen : Nat := 84
/-- The lower end of `LINK_CLOCK_RANGE_KHZ` (R8). -/
def linkClockMinKhz : Nat := 300
/-- The upper end of `LINK_CLOCK_RANGE_KHZ` (R8). -/
def linkClockMaxKhz : Nat := 750
/-- `XCHG_MAX` (R9, decided by D18). -/
def xchgMax : Nat := 65535
/-- The default of the parameter `LINE_FAULT_SET` (R9, D15). The set in force is `State.lineFaultSet`. -/
def lineFaultDefault : List Byte := [0x00#8, 0x63#8, 0xE6#8]

/-! ### Free values of the oracle (log entries 3 and 4) -/

/-- The outcome the oracle chooses for exchange number `n` of bytes `tx`, given what went over the
link since reset and the link configuration. Free: R83 lets it depend on every byte sent and on
anything else. -/
opaque peerOutcome (n : Nat) (history : List Transfer) (linkcfg : Word) (tx : List Byte) : PeerOutcome

/-- The byte received in slot `slot` of exchange number `n` where no settled outcome says which (R83:
any bytes may be returned). -/
opaque peerByte (n slot : Nat) : Byte

/-! ### Open parameters (R9, log entry 13). No command of the block reads one. -/

/-- `DEVICE_LINK_MODE`: the clock polarity and phase the device needs (D11). -/
opaque deviceLinkMode : BitVec 2
/-- How far `LINK_CLOCK_KHZ` lies above 300. -/
opaque linkClockAboveMin : Fin 451
/-- `LINK_CLOCK_KHZ`: the driver's rate, somewhere in 300..750 (D11). -/
def linkClockKhz : HalfWord := BitVec.ofNat 16 (linkClockMinKhz + linkClockAboveMin.val)
/-- `DEV_CMD_HIST` (D16). -/
opaque devCmdHist : Byte
/-- `DEV_CMD_POWER` (D16). -/
opaque devCmdPower : Byte
/-- `DEV_CMD_FAN_ON` (D16). -/
opaque devCmdFanOn : Byte
/-- `DEV_CMD_FAN_OFF` (D16). -/
opaque devCmdFanOff : Byte
/-- `DEV_CMD_LASER_ON` (D16). -/
opaque devCmdLaserOn : Byte
/-- `DEV_CMD_LASER_OFF` (D16). -/
opaque devCmdLaserOff : Byte
/-- `DEV_CMD_STATUS` (D16). -/
opaque devCmdStatus : Byte
/-- `DEV_ACK_*`: the acknowledgement the device echoes for an on/off opcode (D16). -/
opaque devAck (opcode : Byte) : Byte
/-- `FILL_BYTE`: what the host sends in a read-only data phase (D17). -/
opaque fillByte : Byte
/-- `TRANSPORT_TIMEOUT`, in any unit of time; the model has none (D21). -/
opaque transportTimeout : Nat
/-- `WIRE_BIT_ORDER` (D20). -/
opaque wireBitOrder : WireBitOrder
/-- Whether chip select stays asserted between a command phase and its data phase (D20). -/
opaque chipSelectHeld : Bool

end Config

end Sys2Proof
end

