-- ==== Sys2Proof/Syntax.lean ====
section
/-! DEFINITION. The eight commands, one constructor per row of spec/opcode_table.json (30_encoding.md R47). -/

namespace Sys2Proof

/-- A decoded command with its operands (30_encoding.md R51, R52). -/
inductive Instr where
  /-- `crc.init` (40_checksum.md R62). -/
  | crcInit
  /-- `crc.update b` (R63). -/
  | crcUpdate (b : Byte)
  /-- `crc.read` (R64). -/
  | crcRead
  /-- `crc.check e0, e1`: the expected bytes in received order, low byte first (R65). -/
  | crcCheck (e0 e1 : Byte)
  /-- `link.open mode, khz`: mode bit 1 is clock polarity, bit 0 clock phase (41_transport.md R84). -/
  | linkOpen (mode : BitVec 2) (khz : HalfWord)
  /-- `link.close` (R85). -/
  | linkClose
  /-- `link.cmd c` (R86). -/
  | linkCmd (c : Byte)
  /-- `link.xchg tx[0], ..., tx[N-1]`: the payload, whose length is the field N (R87, R52). -/
  | linkXchg (tx : List Byte)
deriving DecidableEq, Repr

end Sys2Proof
end

