-- ==== Sys2Proof/Machine/State.lean ====
section
/-! DEFINITION. The block's state (10_state.md), the model's own input and output fields beside it, the
reasons a step can stop, and the state after reset (R26, 70_reset_and_hazards.md R111). -/

namespace Sys2Proof.Machine

/-- `LINKCFG.PHASE`: where the half-duplex framing stands (10_state.md R18). -/
inductive Phase where
  /-- 0: no READY since the last command phase, open, close or transport error. -/
  | idle
  /-- 1: the last command phase returned READY. -/
  | data
deriving DecidableEq, Repr, Inhabited

/-- The link configuration register's fields (10_state.md R16). No command reads the register as a
word (R21); its 32-bit image is `LinkCfg.word`. The reserved bits 15:4 are hardwired 0, so they have
no storage (log entry 9). -/
structure LinkCfg where
  /-- `OPEN`, bit 0: a transport session is open (R17). -/
  isOpen : Bool
  /-- `PHASE`, bit 1 (R18). -/
  phase : Phase
  /-- `MODE`, bits 3:2: bit 3 clock polarity, bit 2 clock phase (R19). -/
  mode : BitVec 2
  /-- `CLK_KHZ`, bits 31:16 (R20). -/
  clkKhz : HalfWord
deriving DecidableEq, Repr

/-- The response codes (60_exceptions.md R96). -/
inductive Code where
  | ok
  | illegalCommand
  | invalidArgument
  | linkNotOpen
  | alreadyOpen
  | notReady
  | transportTimeout
  | transportFault
deriving DecidableEq, Repr, Inhabited

/-- What a command hands to the host when it ends (30_encoding.md R50). The code's u8 is `Code.byte`. -/
structure Response where
  code : Code
  value : HalfWord
  data : List Byte
deriving DecidableEq, Repr, Inhabited

/-- The machine: the spec's two registers, then the model's own fields (INVENTORY.md, State). -/
structure State where
  /-- `CRC`, the accumulator (10_state.md R14). -/
  crc : HalfWord
  /-- `LINKCFG` (R16). -/
  linkcfg : LinkCfg
  /-- The parameter `LINE_FAULT_SET` (41_transport.md R81). No step writes it. -/
  lineFaultSet : List Byte
  /-- Model's own: command bytes issued by the host and not yet taken (R13, 30_encoding.md R46). -/
  stream : List Byte
  /-- Model's own: the response of the last command that ended (R22). No command reads it. -/
  response : Option Response
  /-- Model's own: every exchange since reset, oldest first (41_transport.md R83). -/
  transfers : List Transfer
  /-- Model's own: outcomes the oracle has settled for the next exchanges, the next one first (R83). -/
  draws : List PeerOutcome
  /-- Model's own: selects the free value of the next exchange (R83). -/
  drawCount : Nat
deriving DecidableEq, Repr

/-- Faults: none. "No behaviour of the block is modelled as stuck or as fault"
(93_implementation_defined.md, section 1; 60_exceptions.md R110). Nothing raises one. -/
inductive Fault where
deriving DecidableEq, Repr

/-- Refusals. -/
inductive Refusal where
  /-- Raised by an arm of `exec` whose instruction has no meaning yet; no arm does. Safe: the run stops. -/
  | notModelled (mnemonic : String)
deriving DecidableEq, Repr

/-- The state after reset (10_state.md R26, 70_reset_and_hazards.md R111). MODE and CLK_KHZ, which the
spec leaves unspecified, are 0 (DESIGN CHOICE, unsafe, log entry 6). No command has been issued and
the oracle is unconstrained: no outcome is settled (DESIGN CHOICE, log entries 1, 3, 5, 7, 8). -/
def State.reset : State where
  crc := 0xFFFF#16
  linkcfg := ⟨false, .idle, 0#2, 0#16⟩
  lineFaultSet := Config.lineFaultDefault
  stream := []
  response := none
  transfers := []
  draws := []
  drawCount := 0

end Sys2Proof.Machine
end

