-- ==== Sys2Proof/Machine/Flags.lean ====
section
/-! DEFINITION. The block has no condition flags (10_state.md R13): the conditions it computes are
returned in responses. They are computed here: the checksum comparison, the status class, and the
8-bit codes. -/

namespace Sys2Proof.Machine

/-- The u8 of a response code (60_exceptions.md R96). -/
def Code.byte : Code → Byte
  | .ok => 0x00#8
  | .illegalCommand => 0x01#8
  | .invalidArgument => 0x02#8
  | .linkNotOpen => 0x03#8
  | .alreadyOpen => 0x04#8
  | .notReady => 0x05#8
  | .transportTimeout => 0x06#8
  | .transportFault => 0x07#8

/-- The two errors an exchange can end in (60_exceptions.md R97, R98 item 5). -/
def Code.isTransport : Code → Bool
  | .transportTimeout => true
  | .transportFault => true
  | .ok | .illegalCommand | .invalidArgument | .linkNotOpen | .alreadyOpen | .notReady => false

/-- The class of a status byte (41_transport.md R80). -/
inductive StatusClass where
  | ready
  | busy
  | lineFault
  | other
deriving DecidableEq, Repr

/-- `classify(s)`, over the parameter LINE_FAULT_SET; READY and BUSY are tested first (R80, R81). -/
def classify (lineFaults : List Byte) (s : Byte) : StatusClass :=
  if s = Config.readyCode then .ready
  else if s = Config.busyCode then .busy
  else if lineFaults.contains s then .lineFault
  else .other

/-- The class codes READY 0, BUSY 1, LINE_FAULT 2, OTHER 3 (R82). -/
def StatusClass.code : StatusClass → Byte
  | .ready => 0x00#8
  | .busy => 0x01#8
  | .lineFault => 0x02#8
  | .other => 0x03#8

/-- PHASE after a command phase whose status has this class (R86, R89). -/
def StatusClass.phase : StatusClass → Phase
  | .ready => .data
  | .busy => .idle
  | .lineFault => .idle
  | .other => .idle

/-- The value of a `link.cmd` response: `class << 8 | status` (30_encoding.md R50, R82). -/
def statusValue (k : StatusClass) (s : Byte) : HalfWord := k.code ++ s

/-- The value of a `crc.check` response: 1 for match, 0 for mismatch, over all 16 bits (40_checksum.md R65). -/
def matchValue (crc expected : HalfWord) : HalfWord := if crc = expected then 1#16 else 0#16

end Sys2Proof.Machine
end

