-- ==== Sys2Proof/Machine/Operands.lean ====
section
/-! DEFINITION. How operands become values (30_encoding.md R51), the operand checks of the LINK unit, and
the layout of LINKCFG as a word (10_state.md R16). -/

namespace Sys2Proof.Machine

/-- `expected = e0 | (e1 << 8)`: the byte received first is the low one (20_memory.md R30, R51). -/
def expectedValue (e0 e1 : Byte) : HalfWord := e1 ++ e0

/-- Whether a link clock lies in 300..750 kHz, both ends legal (41_transport.md R84). -/
def clockInRange (khz : HalfWord) : Bool :=
  decide (Config.linkClockMinKhz ≤ khz.toNat ∧ khz.toNat ≤ Config.linkClockMaxKhz)

/-- `PHASE` as a bit: 0 IDLE, 1 DATA (10_state.md R16). -/
def Phase.bit : Phase → BitVec 1
  | .idle => 0#1
  | .data => 1#1

/-- LINKCFG as its 32-bit image: CLK_KHZ[31:16], reserved[15:4] = 0, MODE[3:2], PHASE[1], OPEN[0]
(10_state.md R16). The operand bit w[17] (polarity) lands in bit 3 and w[16] (phase) in bit 2. -/
def LinkCfg.word (c : LinkCfg) : Word :=
  c.clkKhz ++ (0#12 ++ (c.mode ++ (c.phase.bit ++ BitVec.ofBool c.isOpen)))

end Sys2Proof.Machine
end

