-- ==== Sys2Proof/Machine/Checksum.lean ====
section
/-! DEFINITION. CRC-16/MODBUS as functions (40_checksum.md R61, R66 to R68, R70). -/

namespace Sys2Proof.Machine

/-- One shift of the register: right by one, then XOR with 0xA001 if the bit shifted out was 1 (R61). -/
def crcShift (c : HalfWord) : HalfWord :=
  if c.getLsbD 0 then (c >>> 1) ^^^ Config.crcPolyReflected else c >>> 1

/-- `n` shifts. -/
def crcShifts : Nat → HalfWord → HalfWord
  | 0, c => c
  | n + 1, c => crcShifts n (crcShift c)

/-- `crc_byte(c, b)`: XOR the byte into the low 8 bits, then eight shifts (R61). -/
def crcByte (c : HalfWord) (b : Byte) : HalfWord := crcShifts 8 (c ^^^ b.setWidth 16)

/-- Feed one bit: the bit shifted out is the register's bit 0 with the data bit added (R61, seen one data
bit at a time). -/
def crcFeedBit (c : HalfWord) (bit : Bool) : HalfWord :=
  if Bool.xor (c.getLsbD 0) bit then (c >>> 1) ^^^ Config.crcPolyReflected else c >>> 1

/-- Feed bits in order. -/
def crcFeedBits : HalfWord → List Bool → HalfWord
  | c, [] => c
  | c, b :: bs => crcFeedBits (crcFeedBit c b) bs

/-- A byte's bits, bit 0 first: the order in which they go through the register (20_memory.md R32). -/
def bitsLowFirst (b : Byte) : List Bool :=
  [b.getLsbD 0, b.getLsbD 1, b.getLsbD 2, b.getLsbD 3, b.getLsbD 4, b.getLsbD 5, b.getLsbD 6, b.getLsbD 7]

/-- `run(c, B)`: feed the bytes of B in order (R70). -/
def crcRun : HalfWord → List Byte → HalfWord
  | c, [] => c
  | c, b :: bs => crcRun (crcByte c b) bs

/-- `checksum(B)` (R66). There is no final step (R67). -/
def checksum (bytes : List Byte) : HalfWord := crcRun Config.crcInitValue bytes

/-- The frames in call order (R68). -/
def joinFrames : List (List Byte) → List Byte
  | [] => []
  | f :: fs => f ++ joinFrames fs

/-- `verify([e0, e1], F1, ..., Fk)` (R68). -/
def verify (e0 e1 : Byte) (frames : List (List Byte)) : Bool :=
  checksum (joinFrames frames) == expectedValue e0 e1

/-- `verify` with its expected bytes as a sequence: no value unless there are exactly two
(R68, 92_eei_decisions.md D7; log entry 15). -/
def verifyBytes : List Byte → List (List Byte) → Option Bool
  | [e0, e1], frames => some (verify e0 e1 frames)
  | [], _ => none
  | [_], _ => none
  | _ :: _ :: _ :: _, _ => none

end Sys2Proof.Machine
end

