-- ==== Sys2Proof/WellFormed.lean ====
section
/-! DEFINITION. Which terms of `Instr` are commands: those a word (and payload) can carry. -/

namespace Sys2Proof

/-- The one bound the types do not already give: an exchange length fits the 16-bit field N, so at
most `XCHG_MAX` = 65535 payload bytes (00_scope.md R9, 92_eei_decisions.md D18). N = 0 is a legal
word, refused at run time (41_transport.md R87). -/
def Instr.wellFormed : Instr → Bool
  | .crcInit => true
  | .crcUpdate _ => true
  | .crcRead => true
  | .crcCheck _ _ => true
  | .linkOpen _ _ => true
  | .linkClose => true
  | .linkCmd _ => true
  | .linkXchg tx => decide (tx.length ≤ 65535)

end Sys2Proof
end

