-- ==== Sys2Proof/Decode.lean ====
section
/-! DEFINITION. Decoding the host's command stream and encoding commands, both from the tables of
30_encoding.md (R45 to R53). Every bit-field and byte-order helper of the encoding is here. -/

namespace Sys2Proof

/-! ### Fields of a command word (R45) -/

/-- `OP = w[31:24]`. -/
def opField (w : Word) : Byte := w.extractLsb' 24 8
/-- `ARG8 = w[23:16]`. -/
def arg8Field (w : Word) : Byte := w.extractLsb' 16 8
/-- `ARG16 = w[15:0]`. -/
def arg16Field (w : Word) : HalfWord := w.extractLsb' 0 16
/-- The six bits of ARG8 that must be 0 for `link.open`: `w[23:18]` (R48). -/
def openReservedField (w : Word) : BitVec 6 := w.extractLsb' 18 6
/-- `mode = w[17:16]` (R51). -/
def modeField (w : Word) : BitVec 2 := w.extractLsb' 16 2
/-- `e0 = w[7:0]` (R51). -/
def e0Field (w : Word) : Byte := w.extractLsb' 0 8
/-- `e1 = w[15:8]` (R51). -/
def e1Field (w : Word) : Byte := w.extractLsb' 8 8

/-- The word of an OP, an ARG8 and an ARG16 (R45). -/
def makeWord (op arg8 : Byte) (arg16 : HalfWord) : Word := op ++ (arg8 ++ arg16)

/-- The four bytes of a word as the stream carries them: bits 7:0 first (R46). -/
def wordBytes (w : Word) : List Byte :=
  [w.extractLsb' 0 8, w.extractLsb' 8 8, w.extractLsb' 16 8, w.extractLsb' 24 8]

/-- The word of four stream bytes, the first the least significant (R46). -/
def joinWord (b0 b1 b2 b3 : Byte) : Word := b3 ++ (b2 ++ (b1 ++ b0))

/-! ### The operation map (R47) -/

/-- One row of R47's match/mask table: a word `w` selects it when `w &&& mask = match`. -/
structure OpRow where
  op : Byte
  pattern : Word
  mask : Word
deriving DecidableEq, Repr

/-- R47's eight rows, in its order. The decoder below reads fields; that it agrees with these
match/mask pairs is a statement about it. -/
def opTable : List OpRow :=
  [⟨0x01#8, 0x01000000#32, 0xFFFFFFFF#32⟩, ⟨0x02#8, 0x02000000#32, 0xFF00FFFF#32⟩,
   ⟨0x03#8, 0x03000000#32, 0xFFFFFFFF#32⟩, ⟨0x04#8, 0x04000000#32, 0xFFFF0000#32⟩,
   ⟨0x10#8, 0x10000000#32, 0xFFFC0000#32⟩, ⟨0x11#8, 0x11000000#32, 0xFFFFFFFF#32⟩,
   ⟨0x12#8, 0x12000000#32, 0xFF00FFFF#32⟩, ⟨0x13#8, 0x13000000#32, 0xFFFF0000#32⟩]

/-- Whether a word selects a row. -/
def OpRow.selects (r : OpRow) (w : Word) : Bool := w &&& r.mask == r.pattern

/-! ### Decoding -/

/-- Why a word is illegal. -/
inductive Illegal where
  /-- The OP is not in R47's table (R49). -/
  | unassignedOp (op : Byte)
  /-- The OP is assigned, but bits that must be 0 are not (R48). -/
  | reservedBits (w : Word)
deriving DecidableEq, Repr

/-- What one word says (R52, R53). -/
inductive WordMeaning where
  /-- A whole command. -/
  | complete (i : Instr)
  /-- A `link.xchg` word: `n` payload bytes follow. -/
  | payload (n : HalfWord)
  /-- ILLEGAL. -/
  | illegal (why : Illegal)
deriving DecidableEq, Repr

/-- The meaning `m` if the bits that must be 0 are 0, else ILLEGAL (R48). -/
def whenZero (zero : Bool) (w : Word) (m : WordMeaning) : WordMeaning :=
  if zero then m else .illegal (.reservedBits w)

/-- Every word decodes to one of the eight commands with its operands, or to ILLEGAL (R47 to R53). -/
def decodeWord (w : Word) : WordMeaning :=
  if opField w = 0x01#8 then whenZero (arg8Field w == 0#8 && arg16Field w == 0#16) w (.complete .crcInit)
  else if opField w = 0x02#8 then whenZero (arg16Field w == 0#16) w (.complete (.crcUpdate (arg8Field w)))
  else if opField w = 0x03#8 then whenZero (arg8Field w == 0#8 && arg16Field w == 0#16) w (.complete .crcRead)
  else if opField w = 0x04#8 then
    whenZero (arg8Field w == 0#8) w (.complete (.crcCheck (e0Field w) (e1Field w)))
  else if opField w = 0x10#8 then
    whenZero (openReservedField w == 0#6) w (.complete (.linkOpen (modeField w) (arg16Field w)))
  else if opField w = 0x11#8 then
    whenZero (arg8Field w == 0#8 && arg16Field w == 0#16) w (.complete .linkClose)
  else if opField w = 0x12#8 then whenZero (arg16Field w == 0#16) w (.complete (.linkCmd (arg8Field w)))
  else if opField w = 0x13#8 then whenZero (arg8Field w == 0#8) w (.payload (arg16Field w))
  else .illegal (.unassignedOp (opField w))

/-- What the front of a command stream holds. -/
inductive Decoded where
  /-- A command, and the bytes after it. -/
  | command (i : Instr) (rest : List Byte)
  /-- An illegal word, and the bytes after its four: it has no payload (R52). -/
  | illegal (why : Illegal) (rest : List Byte)
  /-- Fewer bytes than the command's length: the host has not issued a whole command (log entry 2). -/
  | incomplete
deriving DecidableEq, Repr

/-- The first `n` bytes of a stream (after `taken`, reversed) and the rest, if there are `n`. -/
def splitPayload : Nat → List Byte → List Byte → Option (List Byte × List Byte)
  | 0, bs, taken => some (taken.reverse, bs)
  | _ + 1, [], _ => none
  | n + 1, b :: bs, taken => splitPayload n bs (b :: taken)

/-- A `link.xchg` takes exactly `n` more bytes (R52). -/
def takePayload (n : HalfWord) (bs : List Byte) : Decoded :=
  match splitPayload n.toNat bs [] with
  | some (tx, rest) => .command (.linkXchg tx) rest
  | none => .incomplete

/-- Decode the front of the command stream (R46, R52). -/
def decode : List Byte → Decoded
  | b0 :: b1 :: b2 :: b3 :: bs =>
    match decodeWord (joinWord b0 b1 b2 b3) with
    | .complete i => .command i bs
    | .payload n => takePayload n bs
    | .illegal why => .illegal why bs
  | _ => .incomplete

/-! ### Encoding (R45 to R47, R51) -/

/-- The command word of an instruction. -/
def encodeWord : Instr → Word
  | .crcInit => makeWord 0x01#8 0#8 0#16
  | .crcUpdate b => makeWord 0x02#8 b 0#16
  | .crcRead => makeWord 0x03#8 0#8 0#16
  | .crcCheck e0 e1 => makeWord 0x04#8 0#8 (e1 ++ e0)
  | .linkOpen mode khz => makeWord 0x10#8 (0#6 ++ mode) khz
  | .linkClose => makeWord 0x11#8 0#8 0#16
  | .linkCmd c => makeWord 0x12#8 c 0#16
  | .linkXchg tx => makeWord 0x13#8 0#8 (BitVec.ofNat 16 tx.length)

/-- The bytes after the word: a `link.xchg`'s N, else none (R52). -/
def payloadOf : Instr → List Byte
  | .linkXchg tx => tx
  | .crcInit | .crcUpdate _ | .crcRead | .crcCheck _ _ | .linkOpen _ _ | .linkClose | .linkCmd _ => []

/-- The bytes of a command in the stream: 4, or 4 + N for `link.xchg` (R46). -/
def encode (i : Instr) : List Byte := wordBytes (encodeWord i) ++ payloadOf i

/-- The bytes of a sequence of commands, in issue order (20_memory.md R43). -/
def encodeAll : List Instr → List Byte
  | [] => []
  | i :: is => encode i ++ encodeAll is

/-! ### The host's probe -/

/-- The first `k` bytes of a number, least significant first (R46). -/
def natBytes : Nat → Nat → List Byte
  | 0, _ => []
  | k + 1, w => BitVec.ofNat 8 w :: natBytes k (w / 256)

/-- How many bytes the command of a word has (R46, R52). -/
def commandLength (w : Word) : Nat :=
  match decodeWord w with
  | .payload n => 4 + n.toNat
  | .complete _ => 4
  | .illegal _ => 4

/-- The instruction whose bits, numbered from its first byte, are `w`, as stream bytes: the `nbits`
bits the table gives, then zeros up to the command's length. -/
def layoutWord (nbits w : Nat) : List Byte :=
  let given := natBytes (nbits / 8) w
  given ++ List.replicate (commandLength (BitVec.ofNat 32 w) - nbits / 8) 0#8

/-- The instruction the decoder reads from those bytes, `none` where it refuses. -/
def decodeTableWord (nbits w : Nat) : Option Instr :=
  match decode (layoutWord nbits w) with
  | .command i _ => some i
  | .illegal _ _ => none
  | .incomplete => none

end Sys2Proof
end

