-- ==== Sys2Proof/Machine/Ops.lean ====
section
/-! DEFINITION. The named operations every meaning is built of: register writes, ending a command with a
response, raising an error, the exchange with the peer device, and what the outside can do (issue
bytes, reset the block). -/

namespace Sys2Proof.Machine

/-! ### Register writes (10_state.md R14, R16) -/

/-- `CRC <- v`. -/
def State.setCrc (s : State) (v : HalfWord) : State := { s with crc := v }

/-- `LINKCFG.PHASE <- p`. -/
def State.setPhase (s : State) (p : Phase) : State := { s with linkcfg := { s.linkcfg with phase := p } }

/-- LINK.OPEN's four writes (41_transport.md R84). -/
def State.openSession (s : State) (mode : BitVec 2) (khz : HalfWord) : State :=
  { s with linkcfg := ⟨true, .idle, mode, khz⟩ }

/-- LINK.CLOSE's two writes; MODE and CLK_KHZ keep their values (R85). -/
def State.closeSession (s : State) : State :=
  { s with linkcfg := { s.linkcfg with isOpen := false, phase := .idle } }

/-! ### Ending a command -/

/-- `respond(code, value, data)`: the one way a command ends (30_encoding.md R50). -/
def State.respond (s : State) (code : Code) (value : HalfWord) (data : List Byte) : State :=
  { s with response := some ⟨code, value, data⟩ }

/-- `raise E`, the block's whole exception mechanism (60_exceptions.md R97): the command ends with
`respond(E, 0, [])`; every other piece of state stays as it was, except that the two transport errors
first set PHASE to IDLE. There is no saved state, mode change or vector (R101), and no return (R102). -/
def raise (e : Code) (s : State) : State :=
  (if e.isTransport then s.setPhase .idle else s).respond e 0#16 []

/-! ### The exchange primitive (41_transport.md R83) -/

/-- Exactly `n` received bytes from slot `slot` on: the settled byte of each slot where there is one, a
free value where there is none (R76, log entry 4). -/
def fillSlots (count : Nat) : Nat → Nat → List Byte → List Byte
  | 0, _, _ => []
  | n + 1, slot, [] => Config.peerByte count slot :: fillSlots count n (slot + 1) []
  | n + 1, slot, b :: bs => b :: fillSlots count n (slot + 1) bs

/-- An outcome with `len(rx) = len(tx)` (R83). -/
def fitOutcome (count len : Nat) : PeerOutcome → PeerOutcome
  | .ok rx => .ok (fillSlots count len 0 rx)
  | .timeout => .timeout
  | .fault => .fault

/-- The oracle's choice for an exchange of `tx`: the next settled outcome, else a free value. -/
def State.oracle (s : State) (tx : List Byte) : PeerOutcome :=
  match s.draws with
  | o :: _ => o
  | [] => Config.peerOutcome s.drawCount s.transfers s.linkcfg.word tx

/-- The outcome of `Exchange(tx)` in a state. -/
def State.exchangeOutcome (s : State) (tx : List Byte) : PeerOutcome :=
  fitOutcome s.drawCount tx.length (s.oracle tx)

/-- The state once `Exchange(tx)` has run: the oracle's choice is spent and the transfer recorded. No
register of the block changes. -/
def State.afterExchange (s : State) (kind : TransferKind) (tx : List Byte) : State :=
  { s with
    transfers := s.transfers ++ [⟨kind, tx, s.exchangeOutcome tx⟩]
    draws := s.draws.tail
    drawCount := s.drawCount + 1 }

/-! ### What each LINK command does with an outcome (R86, R87) -/

/-- LINK.CMD's `Ok(rx)` case: classify the status byte, set PHASE, respond (R86). -/
def finishCommand (status : Byte) (s : State) : State :=
  let k := classify s.lineFaultSet status
  (s.setPhase k.phase).respond .ok (statusValue k status) []

/-! ### Taking commands off the stream -/

/-- The state once the block has taken a command's bytes: the rest of the stream is left (30_encoding.md R52). -/
def State.setStream (s : State) (rest : List Byte) : State := { s with stream := rest }

/-- The answer to an illegal word: ILLEGAL_COMMAND, the next word next (R48, R49, R52). -/
def answerIllegal (rest : List Byte) (s : State) : State := raise .illegalCommand (s.setStream rest)

/-- With no whole command issued the block waits for the host and nothing changes (log entry 2). -/
def awaitHost (s : State) : State := s

/-! ### What the outside can do -/

/-- The host issues bytes of its command stream (R46). -/
def State.issue (s : State) (bytes : List Byte) : State := { s with stream := s.stream ++ bytes }

/-- Bytes put at the front of the stream, to be taken next. -/
def State.issueFirst (s : State) (bytes : List Byte) : State := { s with stream := bytes ++ s.stream }

/-- Reset as an event (70_reset_and_hazards.md R111). `mode` and `khz` are the unspecified MODE and
CLK_KHZ after it: any values (10_state.md R19, R20, R26). No byte is sent and the peer device is not
reset, so what has gone over the link and what it will answer stay; so do the host's stream and its
view of the last response, which are not the block's (log entry 14). -/
def resetEvent (mode : BitVec 2) (khz : HalfWord) (s : State) : State :=
  { s with crc := 0xFFFF#16, linkcfg := ⟨false, .idle, mode, khz⟩ }

end Sys2Proof.Machine
end

