-- ==== Sys2Proof/Machine/CrcUnit.lean ====
section
/-! DEFINITION. The CRC unit's commands (40_checksum.md R62 to R65). None depends on LINKCFG. -/

namespace Sys2Proof.Machine

/-- CRC.INIT (R62). -/
def execCrcInit (s : State) : Host.Outcome State Fault Refusal :=
  .next ((s.setCrc Config.crcInitValue).respond .ok 0#16 [])

/-- CRC.UPDATE (R63). -/
def execCrcUpdate (b : Byte) (s : State) : Host.Outcome State Fault Refusal :=
  .next ((s.setCrc (crcByte s.crc b)).respond .ok 0#16 [])

/-- CRC.READ (R64). -/
def execCrcRead (s : State) : Host.Outcome State Fault Refusal :=
  .next (s.respond .ok s.crc [])

/-- CRC.CHECK (R65). A mismatch is a successful command whose value is 0. -/
def execCrcCheck (e0 e1 : Byte) (s : State) : Host.Outcome State Fault Refusal :=
  .next (s.respond .ok (matchValue s.crc (expectedValue e0 e1)) [])

end Sys2Proof.Machine
end

