-- ==== Sys2Proof/Machine/LinkUnit.lean ====
section
/-! DEFINITION. The LINK unit's commands (41_transport.md R84 to R87). Every check that can fail without
touching the link comes before the exchange (R78), in the priority of 60_exceptions.md R98. -/

namespace Sys2Proof.Machine

/-- LINK.OPEN (R84). -/
def execLinkOpen (mode : BitVec 2) (khz : HalfWord) (s : State) : Host.Outcome State Fault Refusal :=
  if s.linkcfg.isOpen then .next (raise .alreadyOpen s)
  else if clockInRange khz then .next ((s.openSession mode khz).respond .ok 0#16 [])
  else .next (raise .invalidArgument s)

/-- LINK.CLOSE (R85). -/
def execLinkClose (s : State) : Host.Outcome State Fault Refusal :=
  if s.linkcfg.isOpen then .next (s.closeSession.respond .ok 0#16 [])
  else .next (raise .linkNotOpen s)

/-- LINK.CMD (R86): one command byte for one status byte. -/
def execLinkCmd (c : Byte) (s : State) : Host.Outcome State Fault Refusal :=
  if s.linkcfg.isOpen then
    match s.exchangeOutcome [c] with
    | .timeout => .next (raise .transportTimeout (s.afterExchange .command [c]))
    | .fault => .next (raise .transportFault (s.afterExchange .command [c]))
    | .ok rx => .next (finishCommand (rx.headD 0#8) (s.afterExchange .command [c]))
  else .next (raise .linkNotOpen s)

/-- LINK.XCHG (R87): a data-phase exchange of N = `tx.length` bytes. Whatever the device sends is delivered; the
block cannot tell a stale frame from a fresh one (R94). -/
def execLinkXchg (tx : List Byte) (s : State) : Host.Outcome State Fault Refusal :=
  if s.linkcfg.isOpen then
    if tx.isEmpty then .next (raise .invalidArgument s)
    else if s.linkcfg.phase = .data then
      match s.exchangeOutcome tx with
      | .timeout => .next (raise .transportTimeout (s.afterExchange .data tx))
      | .fault => .next (raise .transportFault (s.afterExchange .data tx))
      | .ok rx => .next ((s.afterExchange .data tx).respond .ok 0#16 rx)
    else .next (raise .notReady s)
  else .next (raise .linkNotOpen s)

end Sys2Proof.Machine
end

