-- ==== Sys2Proof/Machine/Dispatch.lean ====
section
/-! DEFINITION. One arm per command (30_encoding.md R47). -/

namespace Sys2Proof.Machine

def exec (i : Instr) (s : State) : Host.Outcome State Fault Refusal :=
  match i with
  | .crcInit => Sys2Proof.Machine.execCrcInit s
  | .crcUpdate b => Sys2Proof.Machine.execCrcUpdate b s
  | .crcRead => Sys2Proof.Machine.execCrcRead s
  | .crcCheck e0 e1 => Sys2Proof.Machine.execCrcCheck e0 e1 s
  | .linkOpen mode khz => Sys2Proof.Machine.execLinkOpen mode khz s
  | .linkClose => Sys2Proof.Machine.execLinkClose s
  | .linkCmd c => Sys2Proof.Machine.execLinkCmd c s
  | .linkXchg tx => Sys2Proof.Machine.execLinkXchg tx s

end Sys2Proof.Machine
end

