-- ==== Sys2Proof/Machine/Step.lean ====
section
/-! DEFINITION. One step: the block takes the next command off the host's stream and runs it to
completion (00_scope.md R7, 20_memory.md R36, R43). -/

namespace Sys2Proof.Machine

/-- Decode the front of the stream; run a command, answer an illegal word, or wait for the host. -/
def step (s : State) : Host.Outcome State Fault Refusal :=
  match decode s.stream with
  | .command i rest => exec i (s.setStream rest)
  | .illegal _ rest => .next (answerIllegal rest s)
  | .incomplete => .next (awaitHost s)

/-- `s` with the instruction of bits `w` as the next bytes of the command stream (log entry 1). -/
def State.withFetchWord (s : State) (nbits w : Nat) : State := s.issueFirst (layoutWord nbits w)

end Sys2Proof.Machine
end

