-- ==== Sys2Proof/Machine/Frame.lean ====
section
/-! DEFINITION. Byte buffers (20_memory.md R28, R29, R33) and the histogram frame (R41, 41_transport.md R92). -/

namespace Sys2Proof.Machine

/-- `join_le`: little-endian concatenation, any width (R29). -/
def joinLe : List Byte → Nat
  | [] => 0
  | b :: bs => b.toNat + 256 * joinLe bs

/-- `MemRead(S, off, n)`: the n bytes from offset `off` as one unsigned integer (R29). The buffer's
offsets are 0..N-1 (R28): beyond them there is nothing to read (log entry 19). -/
def memRead (buf : List Byte) (off n : Nat) : Option Nat :=
  if off + n ≤ buf.length then some (joinLe ((buf.drop off).take n)) else none

/-- The fields of the histogram frame (R41). The spec names neither the three concentrations nor which
reject counter is which, nor what each time-of-flight byte means (91_not_in_source.md N6). -/
inductive HistField where
  | bin (k : Fin 24)
  | timeOfFlight (j : Fin 4)
  | samplingTime
  | flowRate
  | temperature
  | humidity
  | concentration (j : Fin 3)
  | reject (j : Fin 4)
  | fanRevolutions
  | laserStatus
  | checksum
deriving DecidableEq, Repr

/-- Where a field starts (R41). -/
def HistField.offset : HistField → Nat
  | .bin k => 2 * k.val
  | .timeOfFlight j => 48 + j.val
  | .samplingTime => 52
  | .flowRate => 54
  | .temperature => 56
  | .humidity => 58
  | .concentration j => 60 + 4 * j.val
  | .reject j => 72 + 2 * j.val
  | .fanRevolutions => 80
  | .laserStatus => 82
  | .checksum => 84

/-- How many bytes a field has (R41). -/
def HistField.width : HistField → Nat
  | .bin _ => 2
  | .timeOfFlight _ => 1
  | .samplingTime => 2
  | .flowRate => 2
  | .temperature => 2
  | .humidity => 2
  | .concentration _ => 4
  | .reject _ => 2
  | .fanRevolutions => 2
  | .laserStatus => 2
  | .checksum => 2

/-- A field of a received frame as an unsigned integer (R33, R41). A concentration's IEEE-754 reading is
outside the block (00_scope.md R6). -/
def histField (frame : List Byte) (f : HistField) : Option Nat := memRead frame f.offset f.width

/-- The covered bytes `R[0..83]` (R41). -/
def histCovered (frame : List Byte) : List Byte := frame.take Config.histCoveredLen

/-- A received histogram frame is valid exactly when its trailing checksum verifies its covered bytes
(41_transport.md R92). A frame that is not 86 bytes long is no histogram frame. The
answer is about the bytes alone: a valid frame is correct, not fresh (R94). -/
def histValid (frame : List Byte) : Bool :=
  decide (frame.length = Config.histFrameLen) &&
    verify (frame.getD 84 0#8) (frame.getD 85 0#8) [histCovered frame]

end Sys2Proof.Machine
end

