-- ==== Sys2Proof/Machine/Pseudo.lean ====
section
/-! DEFINITION. Pseudo-instructions and host transactions as command sequences (30_encoding.md R56 to
R60, 41_transport.md R91, R93), and what a sequence does. -/

namespace Sys2Proof.Machine

/-- Commands one after another, each complete before the next (20_memory.md R43). -/
def execSeq : List Instr → State → Host.Outcome State Fault Refusal
  | [], s => .next s
  | i :: is, s =>
    match exec i s with
    | .next t => execSeq is t
    | .fault r => .fault r
    | .refused r => .refused r

/-- One `crc.update` per byte, in order. -/
def crcUpdates (bytes : List Byte) : List Instr := bytes.map .crcUpdate

/-- `checksum B` (R56). -/
def checksumSeq (bytes : List Byte) : List Instr := .crcInit :: (crcUpdates bytes ++ [.crcRead])

/-- `verify [e0, e1], F1, ..., Fk` (R57). -/
def verifySeq (e0 e1 : Byte) (frames : List (List Byte)) : List Instr :=
  .crcInit :: (crcUpdates (joinFrames frames) ++ [.crcCheck e0 e1])

/-- `link.read N, f`: N copies of the fill byte (R58). -/
def linkRead (n : Nat) (f : Byte) : Instr := .linkXchg (List.replicate n f)

/-- `link.txn c`, a synonym of `link.cmd c` (R58). -/
def linkTxn (c : Byte) : Instr := .linkCmd c

/-- `hist.validate R`; the assembler refuses a frame that is not 86 bytes (R59). -/
def histValidateSeq (frame : List Byte) : Option (List Instr) :=
  if frame.length = Config.histFrameLen then
    some (verifySeq (frame.getD 84 0#8) (frame.getD 85 0#8) [histCovered frame])
  else none

/-- The histogram read, before validation: command phase, then 86 fill bytes (41_transport.md R91). -/
def histReadSeq : List Instr :=
  [.linkCmd Config.devCmdHist, linkRead Config.histFrameLen Config.fillByte]

/-- The flush before an acquisition: a histogram read like any other, whose frame the host discards
(70_reset_and_hazards.md R116). No state of the block tells its frame, stale or not, from a fresh one
(41_transport.md R94). -/
def histFlushSeq : List Instr := histReadSeq

/-- A power on/off transaction: the power-state command, then the opcode as one data byte (R93). -/
def powerSwitchSeq (opcode : Byte) : List Instr := [.linkCmd Config.devCmdPower, .linkXchg [opcode]]

/-- A power-status transaction: the power-state command, then six data bytes (R93, 20_memory.md R40). -/
def powerStatusSeq : List Instr :=
  [.linkCmd Config.devCmdPower, linkRead Config.powerStatusLen Config.fillByte]

/-- The host's comparison of the echoed byte with the acknowledgement it expects (R93). -/
def echoAcknowledges (opcode : Byte) (r : Response) : Bool := r.data == [Config.devAck opcode]

end Sys2Proof.Machine
end

