-- ==== Sys2Proof/Machine/Asm.lean ====
section
/-! DEFINITION. The assembly syntax (30_encoding.md R54, R55) and the written pseudo-instructions (R56 to
R59), as an assembler from text to commands. What the spec leaves open of the text (blanks, empty
lines, the case of hexadecimal digits) is log entry 17. -/

namespace Sys2Proof.Machine

/-- Why the assembler refuses a line; it then emits no word (R55). -/
inductive AsmError where
  | unknownMnemonic
  | notALiteral
  | operandOutOfRange
  | wrongOperands
deriving DecidableEq, Repr

/-! ### Text -/

/-- A blank inside a line. -/
def isBlank (c : Char) : Bool := c == ' ' || c == '\t' || c == '\r'

/-- The pieces of a text between separators; one piece more than there are separators. -/
def piecesBy (sep : Char → Bool) : List Char → List (List Char)
  | [] => [[]]
  | c :: cs =>
    if sep c then [] :: piecesBy sep cs
    else
      match piecesBy sep cs with
      | [] => [[c]]
      | p :: ps => (c :: p) :: ps

/-- The text without blanks at its front. -/
def dropBlanks : List Char → List Char
  | [] => []
  | c :: cs => if isBlank c then dropBlanks cs else c :: cs

/-- The text without blanks at either end. -/
def trimBlanks (cs : List Char) : List Char := (dropBlanks (dropBlanks cs).reverse).reverse

/-- The text before the first character of a kind. -/
def textBefore (stop : Char → Bool) : List Char → List Char
  | [] => []
  | c :: cs => if stop c then [] else c :: textBefore stop cs

/-- The text from the first character of a kind on. -/
def textFrom (stop : Char → Bool) : List Char → List Char
  | [] => []
  | c :: cs => if stop c then c :: cs else textFrom stop cs

/-- The words of a text, separated by blanks. -/
def wordsOf (cs : List Char) : List (List Char) := (piecesBy isBlank cs).filter (fun p => !p.isEmpty)

/-! ### Literals (R55) -/

/-- The value of a digit in a base of at most 16. -/
def digitValue (base : Nat) (c : Char) : Option Nat :=
  let v := if '0' ≤ c ∧ c ≤ '9' then c.toNat - '0'.toNat
    else if 'a' ≤ c ∧ c ≤ 'f' then c.toNat - 'a'.toNat + 10
    else if 'A' ≤ c ∧ c ≤ 'F' then c.toNat - 'A'.toNat + 10
    else 16
  if v < base then some v else none

/-- The value of digits, most significant first, after `acc`. -/
def digitsValue (base : Nat) : Nat → List Char → Option Nat
  | acc, [] => some acc
  | acc, c :: cs =>
    match digitValue base c with
    | some v => digitsValue base (acc * base + v) cs
    | none => none

/-- A literal: `0x` and hexadecimal digits, or decimal digits. -/
def literal : List Char → Except AsmError Nat
  | [] => .error .notALiteral
  | '0' :: 'x' :: c :: cs => ((digitsValue 16 0 (c :: cs)).map Except.ok).getD (.error .notALiteral)
  | cs => ((digitsValue 10 0 cs).map Except.ok).getD (.error .notALiteral)

/-- A literal that must not exceed `max`. -/
def literalUpTo (max : Nat) (cs : List Char) : Except AsmError Nat :=
  match literal cs with
  | .ok v => if v ≤ max then .ok v else .error .operandOutOfRange
  | .error e => .error e

/-- A `<byte>` operand, 0..255. -/
def byteOperand (cs : List Char) : Except AsmError Byte :=
  match literalUpTo 255 cs with
  | .ok v => .ok (BitVec.ofNat 8 v)
  | .error e => .error e

/-- One item of a byte list: `<byte>`, or `<byte> x N` for N copies (R55). R55 says "in an operand list"; the model
takes the form in the lists of any length only, `link.xchg`'s and the bracketed sequences (DESIGN CHOICE, log
entry 17). -/
def byteItem (cs : List Char) : Except AsmError (List Byte) :=
  match wordsOf cs with
  | [b] =>
    match byteOperand b with
    | .ok v => .ok [v]
    | .error e => .error e
  | [b, x, n] =>
    if x = ['x'] then
      match byteOperand b, literalUpTo Config.xchgMax n with
      | .ok v, .ok k => .ok (List.replicate k v)
      | .error e, _ => .error e
      | .ok _, .error e => .error e
    else .error .wrongOperands
  | [] => .error .wrongOperands
  | [_, _] => .error .wrongOperands
  | _ :: _ :: _ :: _ :: _ => .error .wrongOperands

/-- The bytes of a list of items, in order. -/
def byteItems : List (List Char) → Except AsmError (List Byte)
  | [] => .ok []
  | p :: ps =>
    match byteItem p, byteItems ps with
    | .ok v, .ok vs => .ok (v ++ vs)
    | .error e, _ => .error e
    | .ok _, .error e => .error e

/-- The operands of a line, separated by commas; none if the text is blank. -/
def operandsOf (cs : List Char) : List (List Char) :=
  if (trimBlanks cs).isEmpty then [] else (piecesBy (· == ',') cs).map trimBlanks

/-- A byte sequence's inside: possibly empty (R10 writes `[]`). -/
def sequenceOf (cs : List Char) : Except AsmError (List Byte) := byteItems (operandsOf cs)

/-- The sequences of pieces `inside]after`, where after each but the last stands one comma. -/
def bracketedSequences : List (List Char) → Except AsmError (List (List Byte))
  | [] => .ok []
  | p :: ps =>
    match piecesBy (· == ']') p with
    | [inside, after] =>
      if trimBlanks after = (if ps.isEmpty then [] else [',']) then
        match sequenceOf inside, bracketedSequences ps with
        | .ok v, .ok vs => .ok (v :: vs)
        | .error e, _ => .error e
        | .ok _, .error e => .error e
      else .error .wrongOperands
    | [] => .error .wrongOperands
    | [_] => .error .wrongOperands
    | _ :: _ :: _ :: _ => .error .wrongOperands

/-- Byte sequences written `[..], [..], ...` (R10). -/
def sequencesOf (cs : List Char) : Except AsmError (List (List Byte)) :=
  match piecesBy (· == '[') cs with
  | [] => .error .wrongOperands
  | front :: ps => if (trimBlanks front).isEmpty then bracketedSequences ps else .error .wrongOperands

/-! ### Lines (R54) -/

/-- A `link.xchg` of a payload, whose length must be 1..65535 (R54). -/
def xchgOf (tx : List Byte) : Except AsmError (List Instr) :=
  if tx.isEmpty then .error .wrongOperands
  else if tx.length ≤ Config.xchgMax then .ok [.linkXchg tx]
  else .error .operandOutOfRange

/-- A command whose one operand is a byte. -/
def oneByte (make : Byte → Instr) : List (List Char) → Except AsmError (List Instr)
  | [b] =>
    match byteOperand b with
    | .ok v => .ok [make v]
    | .error e => .error e
  | [] => .error .wrongOperands
  | _ :: _ :: _ => .error .wrongOperands

/-- A command without operands. -/
def noOperands (is : List Instr) : List (List Char) → Except AsmError (List Instr)
  | [] => .ok is
  | _ :: _ => .error .wrongOperands

/-- `crc.check <e0>, <e1>`: two literals. Where `<byte> x N` may stand is the model's choice, log entry 17. -/
def checkOf : List (List Char) → Except AsmError (List Instr)
  | [a, b] =>
    match byteOperand a, byteOperand b with
    | .ok e0, .ok e1 => .ok [.crcCheck e0 e1]
    | .error e, _ => .error e
    | .ok _, .error e => .error e
  | [] => .error .wrongOperands
  | [_] => .error .wrongOperands
  | _ :: _ :: _ :: _ => .error .wrongOperands

/-- `link.open <mode>, <khz>`: mode 0..3, khz 0..65535; the block, not the assembler, refuses a rate
outside 300..750 (R55). -/
def openOf : List (List Char) → Except AsmError (List Instr)
  | [a, b] =>
    match literalUpTo 3 a, literalUpTo 65535 b with
    | .ok m, .ok k => .ok [.linkOpen (BitVec.ofNat 2 m) (BitVec.ofNat 16 k)]
    | .error e, _ => .error e
    | .ok _, .error e => .error e
  | [] => .error .wrongOperands
  | [_] => .error .wrongOperands
  | _ :: _ :: _ :: _ => .error .wrongOperands

/-- `link.read N, f` (R58). -/
def readOf : List (List Char) → Except AsmError (List Instr)
  | [a, b] =>
    match literalUpTo Config.xchgMax a, byteOperand b with
    | .ok n, .ok f => xchgOf (List.replicate n f)
    | .error e, _ => .error e
    | .ok _, .error e => .error e
  | [] => .error .wrongOperands
  | [_] => .error .wrongOperands
  | _ :: _ :: _ :: _ => .error .wrongOperands

/-- `checksum B` (R56). -/
def checksumOf : List (List Byte) → Except AsmError (List Instr)
  | [b] => .ok (checksumSeq b)
  | [] => .error .wrongOperands
  | _ :: _ :: _ => .error .wrongOperands

/-- `verify [e0, e1], F1, ..., Fk` (R57); other than two expected bytes is refused (R68). -/
def verifyOf : List (List Byte) → Except AsmError (List Instr)
  | [e0, e1] :: frames => .ok (verifySeq e0 e1 frames)
  | [] => .error .wrongOperands
  | [] :: _ => .error .wrongOperands
  | [_] :: _ => .error .wrongOperands
  | (_ :: _ :: _ :: _) :: _ => .error .wrongOperands

/-- `hist.validate R` (R59). -/
def histOf : List (List Byte) → Except AsmError (List Instr)
  | [r] => ((histValidateSeq r).map Except.ok).getD (.error .wrongOperands)
  | [] => .error .wrongOperands
  | _ :: _ :: _ => .error .wrongOperands

/-- A pseudo-instruction over byte sequences. -/
def ofSequences (make : List (List Byte) → Except AsmError (List Instr)) (cs : List Char) :
    Except AsmError (List Instr) :=
  match sequencesOf cs with
  | .ok ss => make ss
  | .error e => .error e

/-- The mnemonics of R54 and of the written pseudo-instructions R56 to R59. -/
inductive Mnemonic where
  | crcInit
  | crcUpdate
  | crcRead
  | crcCheck
  | linkOpen
  | linkClose
  | linkCmd
  | linkXchg
  | linkRead
  | linkTxn
  | checksum
  | verify
  | histValidate
deriving DecidableEq, Repr

/-- How each mnemonic is written, in lower case (R54). -/
def mnemonicNames : List (List Char × Mnemonic) :=
  [("crc.init".toList, .crcInit), ("crc.update".toList, .crcUpdate), ("crc.read".toList, .crcRead),
   ("crc.check".toList, .crcCheck), ("link.open".toList, .linkOpen), ("link.close".toList, .linkClose),
   ("link.cmd".toList, .linkCmd), ("link.xchg".toList, .linkXchg), ("link.read".toList, .linkRead),
   ("link.txn".toList, .linkTxn), ("checksum".toList, .checksum), ("verify".toList, .verify),
   ("hist.validate".toList, .histValidate)]

/-- The commands of a mnemonic with the text after it. -/
def assembleOperands (m : Mnemonic) (rest : List Char) : Except AsmError (List Instr) :=
  match m with
  | .crcInit => noOperands [.crcInit] (operandsOf rest)
  | .crcUpdate => oneByte .crcUpdate (operandsOf rest)
  | .crcRead => noOperands [.crcRead] (operandsOf rest)
  | .crcCheck => checkOf (operandsOf rest)
  | .linkOpen => openOf (operandsOf rest)
  | .linkClose => noOperands [.linkClose] (operandsOf rest)
  | .linkCmd => oneByte .linkCmd (operandsOf rest)
  | .linkXchg =>
    match byteItems (operandsOf rest) with
    | .ok tx => xchgOf tx
    | .error e => .error e
  | .linkRead => readOf (operandsOf rest)
  | .linkTxn => oneByte linkTxn (operandsOf rest)
  | .checksum => ofSequences checksumOf rest
  | .verify => ofSequences verifyOf rest
  | .histValidate => ofSequences histOf rest

/-- The commands of a written mnemonic and the text after it. -/
def assembleCommand (name rest : List Char) : Except AsmError (List Instr) :=
  match mnemonicNames.lookup name with
  | some m => assembleOperands m rest
  | none => .error .unknownMnemonic

/-- One line: a comment starts at `;`, and a line without a command assembles to nothing. -/
def assembleLine (cs : List Char) : Except AsmError (List Instr) :=
  let code := trimBlanks (textBefore (· == ';') cs)
  if code.isEmpty then .ok []
  else assembleCommand (textBefore isBlank code) (textFrom isBlank code)

/-- The commands of some lines; the first refused line refuses the text. -/
def assembleLines : List (List Char) → Except AsmError (List Instr)
  | [] => .ok []
  | l :: ls =>
    match assembleLine l, assembleLines ls with
    | .ok is, .ok rest => .ok (is ++ rest)
    | .error e, _ => .error e
    | .ok _, .error e => .error e

/-- A whole text, one command per line (R54). -/
def assemble (text : List Char) : Except AsmError (List Instr) := assembleLines (piecesBy (· == '\n') text)

/-- The command stream of a text (R46). -/
def assembleBytes (text : List Char) : Except AsmError (List Byte) :=
  match assemble text with
  | .ok is => .ok (encodeAll is)
  | .error e => .error e

end Sys2Proof.Machine
end

