-- ==== Sys2Proof/Safety.lean ====
section
/-! DEFINITION. The terms claims are stated in: the invariants of the state, the framing history, what a
command may answer, and which states a host cannot tell apart. -/

namespace Sys2Proof.Machine

/-- A recorded exchange has 1..65535 bytes, a command phase exactly one, and a successful one as many
received as sent (41_transport.md R76, R83, R88). -/
def Transfer.Fits (t : Transfer) : Prop :=
  1 ≤ t.tx.length ∧ t.tx.length ≤ Config.xchgMax ∧ (t.kind = .command → t.tx.length = Config.cmdPhaseLen) ∧
    ∀ rx, t.outcome = .ok rx → rx.length = t.tx.length

/-- What every reachable state satisfies. -/
structure StateInv (s : State) : Prop where
  /-- PHASE is DATA only inside a session (10_state.md R18, 41_transport.md R85). -/
  data_needs_session : s.linkcfg.phase = .data → s.linkcfg.isOpen = true
  /-- An open session's CLK_KHZ is a legal value (10_state.md R16, R20). -/
  open_clock_in_range : s.linkcfg.isOpen = true →
    300 ≤ s.linkcfg.clkKhz.toNat ∧ s.linkcfg.clkKhz.toNat ≤ 750
  /-- LINE_FAULT_SET contains neither READY nor BUSY (41_transport.md R81). -/
  faults_exclude_ready_busy : 0xF3#8 ∉ s.lineFaultSet ∧ 0x31#8 ∉ s.lineFaultSet
  /-- An error response has value 0 and no data (60_exceptions.md R96). -/
  error_response_bare : ∀ r, s.response = some r → r.code ≠ .ok → r.value = 0#16 ∧ r.data = []
  /-- Every exchange since reset had legal lengths. -/
  transfers_fit : ∀ t ∈ s.transfers, Transfer.Fits t

/-- PHASE as one more exchange leaves it (41_transport.md R86, R87, R90). -/
def nextPhase (p : Phase) (t : Transfer) : Phase :=
  match t.kind, t.outcome with
  | .command, .ok rx => if rx = [Config.readyCode] then .data else .idle
  | .data, .ok _ => p
  | _, .timeout => .idle
  | _, .fault => .idle

/-- PHASE as a history of exchanges leaves it. -/
def phaseAfter (ts : List Transfer) : Phase := ts.foldl nextPhase .idle

/-- Every data phase in a history came after a READY with no transport error since (10_state.md R18,
41_transport.md R79). -/
def Framed (ts : List Transfer) : Prop :=
  ∀ before t after, ts = before ++ t :: after → t.kind = .data → phaseAfter before = .data

/-- The framing discipline: the history is framed, and PHASE is DATA only if the history says so. -/
structure FramingInv (s : State) : Prop where
  history_framed : Framed s.transfers
  data_means_ready : s.linkcfg.phase = .data → phaseAfter s.transfers = .data

/-- Two states that differ at most in MODE and CLK_KHZ, and in those only while no session is open
(10_state.md R19, R20; 41_transport.md R85). -/
structure SameButClosedConfig (s t : State) : Prop where
  crc : t.crc = s.crc
  isOpen : t.linkcfg.isOpen = s.linkcfg.isOpen
  phase : t.linkcfg.phase = s.linkcfg.phase
  config : s.linkcfg.isOpen = true → t.linkcfg.mode = s.linkcfg.mode ∧ t.linkcfg.clkKhz = s.linkcfg.clkKhz
  lineFaultSet : t.lineFaultSet = s.lineFaultSet
  stream : t.stream = s.stream
  response : t.response = s.response
  transfers : t.transfers = s.transfers
  draws : t.draws = s.draws
  drawCount : t.drawCount = s.drawCount

/-- The codes each command may answer with once decoded (60_exceptions.md R96, "returned by"). -/
def codesOf : Instr → List Code
  | .crcInit => [.ok]
  | .crcUpdate _ => [.ok]
  | .crcRead => [.ok]
  | .crcCheck _ _ => [.ok]
  | .linkOpen _ _ => [.ok, .invalidArgument, .alreadyOpen]
  | .linkClose => [.ok, .linkNotOpen]
  | .linkCmd _ => [.ok, .linkNotOpen, .transportTimeout, .transportFault]
  | .linkXchg _ => [.ok, .invalidArgument, .linkNotOpen, .notReady, .transportTimeout, .transportFault]

/-- The code an exchange's outcome gives its command (41_transport.md R86, R87). -/
def outcomeCode : PeerOutcome → Code
  | .ok _ => .ok
  | .timeout => .transportTimeout
  | .fault => .transportFault

/-- The code of the last response, if there was one. -/
def State.lastCode (s : State) : Option Code := s.response.map (·.code)

/-- The session is the one premises about the device speak of (41_transport.md R84, 92_eei_decisions.md D11). -/
def State.sessionAsDeviceNeeds (s : State) : Prop :=
  s.linkcfg.isOpen = true ∧ s.linkcfg.mode = Config.deviceLinkMode ∧ s.linkcfg.clkKhz = Config.linkClockKhz

/-- A command belongs to the CRC unit (40_checksum.md). -/
def isCrcCommand : Instr → Bool
  | .crcInit | .crcUpdate _ | .crcRead | .crcCheck _ _ => true
  | .linkOpen _ _ | .linkClose | .linkCmd _ | .linkXchg _ => false

end Sys2Proof.Machine
end

