-- ==== Sys2Proof/Certificates/Slice0/Obligations.lean ====
section
/-! DEFINITION. The statements for the provers. OBLIGATIONS.json lists them with the rules they rest on.
Where a docstring names a decision D<n>, the rule is the spec's own choice (92_eei_decisions.md). The fields
`stream`, `response`, `transfers`, `draws` and `drawCount` they speak of are the model's own (log entries 1, 7, 8
and 3), not the spec's. -/

open Sys2Proof Sys2Proof.Machine

/-! ### Decoding and encoding (30_encoding.md) -/

/-- Every operand of every command survives encoding and decoding, whatever follows in the stream
(R45 to R53, D2, D26). -/
def Obligations.DecodeOfEncodeIsTheCommand : Prop :=
  ∀ (i : Instr) (rest : List Byte), i.wellFormed = true → decode (encode i ++ rest) = .command i rest

/-- A stream that decodes to a command begins with that command's only encoding: no other bytes mean it,
and no byte is dropped or added (R47 to R52, D2). -/
def Obligations.DecodedBytesAreTheEncoding : Prop :=
  ∀ (bs rest : List Byte) (i : Instr), decode bs = .command i rest →
    i.wellFormed = true ∧ bs = encode i ++ rest

/-- Every word selects the row of R47's match/mask table that it decodes to, with the operands R51 names;
it is ILLEGAL exactly when it selects none; no word selects two rows (D2). -/
def Obligations.DecoderAgreesWithMatchMaskTable : Prop :=
  ∀ w : Word,
    (w &&& 0xFFFFFFFF#32 = 0x01000000#32 → decodeWord w = .complete .crcInit) ∧
    (w &&& 0xFF00FFFF#32 = 0x02000000#32 → decodeWord w = .complete (.crcUpdate (w.extractLsb' 16 8))) ∧
    (w &&& 0xFFFFFFFF#32 = 0x03000000#32 → decodeWord w = .complete .crcRead) ∧
    (w &&& 0xFFFF0000#32 = 0x04000000#32 →
      decodeWord w = .complete (.crcCheck (w.extractLsb' 0 8) (w.extractLsb' 8 8))) ∧
    (w &&& 0xFFFC0000#32 = 0x10000000#32 →
      decodeWord w = .complete (.linkOpen (w.extractLsb' 16 2) (w.extractLsb' 0 16))) ∧
    (w &&& 0xFFFFFFFF#32 = 0x11000000#32 → decodeWord w = .complete .linkClose) ∧
    (w &&& 0xFF00FFFF#32 = 0x12000000#32 → decodeWord w = .complete (.linkCmd (w.extractLsb' 16 8))) ∧
    (w &&& 0xFFFF0000#32 = 0x13000000#32 → decodeWord w = .payload (w.extractLsb' 0 16)) ∧
    ((∃ why, decodeWord w = .illegal why) ↔ ∀ r ∈ opTable, w &&& r.mask ≠ r.pattern) ∧
    (∀ r₁ ∈ opTable, ∀ r₂ ∈ opTable, w &&& r₁.mask = r₁.pattern → w &&& r₂.mask = r₂.pattern → r₁ = r₂)

/-- A few of 95_test_vectors.md V16's words, and V16's byte order. -/
def Obligations.SampleWordsDecode : Prop :=
  decodeWord 0x01000000#32 = .complete .crcInit ∧
  decodeWord 0x02AB0000#32 = .complete (.crcUpdate 0xAB#8) ∧
  decodeWord 0x03000000#32 = .complete .crcRead ∧
  decodeWord 0x04001234#32 = .complete (.crcCheck 0x34#8 0x12#8) ∧
  decodeWord 0x100302EE#32 = .complete (.linkOpen 3#2 750#16) ∧
  decodeWord 0x11000000#32 = .complete .linkClose ∧
  decodeWord 0x12FF0000#32 = .complete (.linkCmd 0xFF#8) ∧
  decodeWord 0x1300FFFF#32 = .payload 65535#16 ∧
  decode [0xF4#8, 0x01#8, 0x01#8, 0x10#8] = .command (.linkOpen 1#2 500#16) [] ∧
  decodeWord 0x10040000#32 = .illegal (.reservedBits 0x10040000#32) ∧
  decodeWord 0x20000000#32 = .illegal (.unassignedOp 0x20#8)

/-- A command is four bytes, bits 7:0 first, and `link.xchg` its payload after them (R46, R52, D26). -/
def Obligations.CommandBytesAndLength : Prop :=
  ∀ i : Instr,
    encode i =
      [(encodeWord i).extractLsb' 0 8, (encodeWord i).extractLsb' 8 8,
        (encodeWord i).extractLsb' 16 8, (encodeWord i).extractLsb' 24 8] ++ payloadOf i ∧
    (∀ tx, i = .linkXchg tx → (encode i).length = 4 + tx.length) ∧
    ((∀ tx, i ≠ .linkXchg tx) → (encode i).length = 4)

/-- A step takes the decoded command's bytes off the stream and runs it. That the stream is a field of State and
a step takes the next command off its front is the model's choice (log entry 1). -/
def Obligations.StepRunsTheDecodedCommand : Prop :=
  ∀ (s : State) (i : Instr) (rest : List Byte), decode s.stream = .command i rest →
    i.wellFormed = true → step s = exec i { s with stream := rest }

/-- An illegal word is answered with ILLEGAL_COMMAND and changes nothing else; only its four bytes leave
the stream (R48, R49, R52, D2). That the stream stands in State is the model's choice (log entry 1). -/
def Obligations.IllegalWordIsAnswered : Prop :=
  ∀ (s : State) (w : Word) (rest : List Byte), s.stream = wordBytes w ++ rest →
    (∀ r ∈ opTable, w &&& r.mask ≠ r.pattern) →
    step s = .next { s with stream := rest, response := some ⟨.illegalCommand, 0#16, []⟩ }

/-- The model's choice (log entry 2): with no whole command in the stream the block waits unchanged. The
stream holds no whole command when it has fewer than four bytes, or fewer than N after a `link.xchg` word. -/
def Obligations.BlockWaitsForAWholeCommand : Prop :=
  (∀ s : State, decode s.stream = .incomplete → step s = .next s) ∧
  (∀ bs : List Byte, bs.length < 4 → decode bs = .incomplete) ∧
  (∀ (n : HalfWord) (bs : List Byte), bs.length < n.toNat →
    decode (wordBytes (makeWord 0x13#8 0#8 n) ++ bs) = .incomplete)

/-- Running the stream of a command sequence, one step a command, is running the sequence: commands take
effect in issue order, each complete before the next (R46; 20_memory.md R43). The stream in State, one command
a step, is the model's choice (log entry 1). -/
def Obligations.StreamRunsInIssueOrder : Prop :=
  ∀ (is : List Instr) (rest : List Byte) (s : State), (∀ i ∈ is, i.wellFormed = true) →
    s.stream = encodeAll is ++ rest →
    Sys2Proof.core.run is.length s = execSeq is { s with stream := rest }

/-! ### Reset (10_state.md R26, 70_reset_and_hazards.md R111) -/

/-- The reset values the spec gives: CRC, OPEN, PHASE and the reserved bits (D6, D25). -/
def Obligations.ResetValues : Prop :=
  State.reset.crc = 0xFFFF#16 ∧ State.reset.linkcfg.isOpen = false ∧
  State.reset.linkcfg.phase = .idle ∧ State.reset.linkcfg.word.extractLsb' 0 2 = 0#2 ∧
  State.reset.linkcfg.word.extractLsb' 4 12 = 0#12

/-- A reset event in any state sets the registers so, leaves MODE and CLK_KHZ at any values, sends no
byte and leaves the peer device alone (D6, D25). The stream and the response view are not the block's. -/
def Obligations.ResetEventSetsRegistersOnly : Prop :=
  ∀ (mode : BitVec 2) (khz : HalfWord) (s : State),
    resetEvent mode khz s =
      { s with crc := 0xFFFF#16, linkcfg := { isOpen := false, phase := .idle, mode := mode, clkKhz := khz } }

/-- LINKCFG's layout (10_state.md R16, D9): OPEN[0], PHASE[1], MODE[3:2], zeros in 15:4, CLK_KHZ[31:16]. -/
def Obligations.LinkcfgLayout : Prop :=
  ∀ c : LinkCfg,
    c.word.getLsbD 0 = c.isOpen ∧ (c.word.getLsbD 1 = true ↔ c.phase = .data) ∧
    c.word.extractLsb' 2 2 = c.mode ∧ c.word.extractLsb' 4 12 = 0#12 ∧ c.word.extractLsb' 16 16 = c.clkKhz

/-! ### The checksum (40_checksum.md) -/

/-- `crc_byte` is R61's algorithm, and its worked example. -/
def Obligations.CrcByteAlgorithm : Prop :=
  (∀ (c : HalfWord) (b : Byte),
    crcByte c b =
      (fun r : HalfWord => if r.getLsbD 0 = true then (r >>> 1) ^^^ 0xA001#16 else r >>> 1)^[8]
        (c ^^^ b.zeroExtend 16)) ∧
  crcByte 0xFFFF#16 0x01#8 = 0x807E#16

/-- The same function fed one data bit at a time, bit 0 of the byte first (20_memory.md R32). -/
def Obligations.CrcByteTakesBitZeroFirst : Prop :=
  ∀ (c : HalfWord) (b : Byte), crcByte c b = crcFeedBits c (bitsLowFirst b)

/-- Neither the register nor the byte is lost: from equal results, equal registers for one byte and equal
bytes for one register. -/
def Obligations.CrcByteIsInjective : Prop :=
  (∀ (c d : HalfWord) (b : Byte), crcByte c b = crcByte d b → c = d) ∧
  (∀ (c : HalfWord) (a b : Byte), crcByte c a = crcByte c b → a = b)

/-- `checksum(B)` is the fold of `crc_byte` from 0xFFFF (R66). -/
def Obligations.ChecksumIsTheFold : Prop :=
  ∀ bytes : List Byte, checksum bytes = bytes.foldl crcByte 0xFFFF#16

/-- Groups fed one after another give the register of their concatenation; order matters (R70, V4). -/
def Obligations.GroupingDoesNotMatterOrderDoes : Prop :=
  (∀ (c : HalfWord) (a b : List Byte), crcRun (crcRun c a) b = crcRun c (a ++ b)) ∧
  (∀ a b : List Byte, checksum (a ++ b) = crcRun (checksum a) b) ∧
  checksum [0x31#8, 0x32#8, 0x33#8, 0x34#8, 0x35#8, 0x36#8, 0x37#8, 0x38#8, 0x39#8] = 0x4B37#16 ∧
  checksum [0x36#8, 0x37#8, 0x38#8, 0x39#8, 0x31#8, 0x32#8, 0x33#8, 0x34#8, 0x35#8] = 0xADDE#16

/-- No bytes check as 0xFFFF, and an empty frame adds nothing (R73). -/
def Obligations.EmptyInputs : Prop :=
  checksum [] = 0xFFFF#16 ∧
  (∀ e0 e1 : Byte, verify e0 e1 [] = true ↔ e0 = 0xFF#8 ∧ e1 = 0xFF#8) ∧
  (∀ (e0 e1 : Byte) (fs gs : List (List Byte)), verify e0 e1 (fs ++ [] :: gs) = verify e0 e1 (fs ++ gs))

/-- Any single-bit error in the covered bytes or in the expected bytes is detected, for every frame set
(R72, whose sentence on the expected bytes the spec marks as its own derivation from R65). -/
def Obligations.SingleBitErrorsAreDetected : Prop :=
  (∀ frames : List (List Byte),
    verify ((checksum (joinFrames frames)).extractLsb' 0 8) ((checksum (joinFrames frames)).extractLsb' 8 8)
      frames = true) ∧
  (∀ (e0 e1 : Byte) (frames frames' : List (List Byte)) (k j : Nat),
    k < (joinFrames frames).length → j < 8 →
    joinFrames frames' = (joinFrames frames).modify k (fun b => b ^^^ (1#8 <<< j)) →
    verify e0 e1 frames = true → verify e0 e1 frames' = false) ∧
  (∀ (e0 e1 : Byte) (frames : List (List Byte)) (j : Nat), j < 8 → verify e0 e1 frames = true →
    verify (e0 ^^^ (1#8 <<< j)) e1 frames = false ∧ verify e0 (e1 ^^^ (1#8 <<< j)) frames = false)

/-- A frame followed by its own checksum leaves the register at 0 (R74, which the spec marks as general
knowledge and checked on vectors only). -/
def Obligations.ResidueIsZero : Prop :=
  ∀ bytes : List Byte,
    checksum (bytes ++ [(checksum bytes).extractLsb' 0 8, (checksum bytes).extractLsb' 8 8]) = 0#16

/-- The `checksum` expansion returns `checksum B` from any state and changes nothing but CRC and the
response (R56, R69, R71; D5). -/
def Obligations.ChecksumSequenceReturnsChecksum : Prop :=
  ∀ (bytes : List Byte) (s : State),
    execSeq (checksumSeq bytes) s =
      .next { s with crc := checksum bytes, response := some ⟨.ok, checksum bytes, []⟩ }

/-- The `verify` expansion answers 1 exactly when the frames' checksum is the little-endian expected
value, from any state (R57, R68, R69; D5). -/
def Obligations.VerifySequenceAnswersVerify : Prop :=
  ∀ (e0 e1 : Byte) (frames : List (List Byte)) (s : State),
    execSeq (verifySeq e0 e1 frames) s =
      .next { s with
        crc := checksum (joinFrames frames)
        response := some ⟨.ok, if checksum (joinFrames frames) = e1 ++ e0 then 1#16 else 0#16, []⟩ }

/-- Updates without a `crc.init` go on from the value an earlier computation left (10_state.md R25,
70_reset_and_hazards.md R118), with P4's instance. -/
def Obligations.UpdatesContinueFromTheOldValue : Prop :=
  (∀ (b : Byte) (bytes : List Byte) (s : State),
    execSeq (crcUpdates (b :: bytes)) s =
      .next { s with crc := crcRun s.crc (b :: bytes), response := some ⟨.ok, 0#16, []⟩ }) ∧
  crcRun 0x807E#16 [0x00#8] = 0x2000#16 ∧ checksum [0x00#8] = 0x40BF#16

/-! ### The CRC unit's commands (40_checksum.md) -/

/-- CRC.INIT's effect, its one word, and ILLEGAL_COMMAND for every other word of its OP (40_checksum.md,
CRC.INIT). The remark that nothing else but reset reaches 0xFFFF is not part of it (log entry 18). -/
def Obligations.CrcInitResult : Prop :=
  (∀ s : State, exec .crcInit s = .next { s with crc := 0xFFFF#16, response := some ⟨.ok, 0#16, []⟩ }) ∧
  decodeWord 0x01000000#32 = .complete .crcInit ∧
  (∀ (s : State) (w : Word) (rest : List Byte), s.stream = wordBytes w ++ rest →
    w.extractLsb' 24 8 = 0x01#8 → w ≠ 0x01000000#32 →
    step s = .next { s with stream := rest, response := some ⟨.illegalCommand, 0#16, []⟩ })

/-- CRC.UPDATE (R63): its encoding, its effect in every state for every byte, its one error, its examples. -/
def Obligations.CrcUpdateResult : Prop :=
  (∀ w : Word, w &&& 0xFF00FFFF#32 = 0x02000000#32 →
    decodeWord w = .complete (.crcUpdate (w.extractLsb' 16 8))) ∧
  (∀ (b : Byte) (s : State),
    exec (.crcUpdate b) s = .next { s with crc := crcByte s.crc b, response := some ⟨.ok, 0#16, []⟩ }) ∧
  (∀ (s : State) (w : Word) (rest : List Byte), s.stream = wordBytes w ++ rest →
    w.extractLsb' 24 8 = 0x02#8 → w.extractLsb' 0 16 ≠ 0#16 →
    step s = .next { s with stream := rest, response := some ⟨.illegalCommand, 0#16, []⟩ }) ∧
  crcByte 0xFFFF#16 0x00#8 = 0x40BF#16 ∧ crcByte 0xFFFF#16 0x01#8 = 0x807E#16

/-- CRC.READ (R64): its encoding, its effect in every state, its one error, its corner cases and example. -/
def Obligations.CrcReadResult : Prop :=
  decodeWord 0x03000000#32 = .complete .crcRead ∧
  (∀ s : State, exec .crcRead s = .next { s with response := some ⟨.ok, s.crc, []⟩ }) ∧
  (∀ (s : State) (w : Word) (rest : List Byte), s.stream = wordBytes w ++ rest →
    w.extractLsb' 24 8 = 0x03#8 → w ≠ 0x03000000#32 →
    step s = .next { s with stream := rest, response := some ⟨.illegalCommand, 0#16, []⟩ }) ∧
  (∀ s : State, execSeq [.crcInit, .crcRead] s =
    .next { s with crc := 0xFFFF#16, response := some ⟨.ok, 0xFFFF#16, []⟩ }) ∧
  (∀ s : State, execSeq [.crcRead, .crcRead] s = exec .crcRead s) ∧
  (∀ s : State,
    execSeq (.crcInit :: crcUpdates [0x31#8, 0x32#8, 0x33#8, 0x34#8, 0x35#8, 0x36#8, 0x37#8, 0x38#8, 0x39#8]
      ++ [.crcRead]) s = .next { s with crc := 0x4B37#16, response := some ⟨.ok, 0x4B37#16, []⟩ })

/-- CRC.CHECK (R65): its encoding, its comparison of all 16 bits in every state, its one error, swapped
expected bytes, the comparison right after CRC.INIT, its examples. -/
def Obligations.CrcCheckResult : Prop :=
  (∀ w : Word, w &&& 0xFFFF0000#32 = 0x04000000#32 →
    decodeWord w = .complete (.crcCheck (w.extractLsb' 0 8) (w.extractLsb' 8 8))) ∧
  (∀ (e0 e1 : Byte) (s : State),
    exec (.crcCheck e0 e1) s =
      .next { s with
        response := some ⟨.ok,
          if s.crc = (e0.zeroExtend 16 ||| (e1.zeroExtend 16 <<< 8)) then 1#16 else 0#16, []⟩ }) ∧
  (∀ (s : State) (w : Word) (rest : List Byte), s.stream = wordBytes w ++ rest →
    w.extractLsb' 24 8 = 0x04#8 → w.extractLsb' 16 8 ≠ 0#8 →
    step s = .next { s with stream := rest, response := some ⟨.illegalCommand, 0#16, []⟩ }) ∧
  (∀ (e0 e1 : Byte) (s : State), exec (.crcCheck e0 e1) s = .next { s with response := some ⟨.ok, 1#16, []⟩ } →
    e0 ≠ e1 → exec (.crcCheck e1 e0) s = .next { s with response := some ⟨.ok, 0#16, []⟩ }) ∧
  (∀ s : State, execSeq [.crcInit, .crcCheck 0xFF#8 0xFF#8] s =
    .next { s with crc := 0xFFFF#16, response := some ⟨.ok, 1#16, []⟩ }) ∧
  (∀ s : State, s.crc = 0xCDC5#16 →
    exec (.crcCheck 0xC5#8 0xCD#8) s = .next { s with response := some ⟨.ok, 1#16, []⟩ } ∧
    exec (.crcCheck 0xCD#8 0xC5#8) s = .next { s with response := some ⟨.ok, 0#16, []⟩ })

/-- The CRC commands have no side effects outside CRC (R38): CRC.INIT and CRC.UPDATE write only CRC, CRC.READ
and CRC.CHECK nothing, and what each leaves and answers is determined by CRC and its operands. -/
def Obligations.CrcCommandsDependOnCrcOnly : Prop :=
  ∀ (i : Instr) (s t : State), isCrcCommand i = true → s.crc = t.crc →
    ∃ (c : HalfWord) (r : Response),
      exec i s = .next { s with crc := c, response := some r } ∧
      exec i t = .next { t with crc := c, response := some r } ∧
      (i = .crcRead ∨ (∃ e0 e1, i = .crcCheck e0 e1) → c = s.crc)

/-- Only CRC.INIT and CRC.UPDATE write CRC: no other command, error or response changes it
(10_state.md R14, R15; D5). -/
def Obligations.OnlyInitAndUpdateWriteCrc : Prop :=
  (∀ (i : Instr) (s t : State), exec i s = .next t → i ≠ .crcInit → (∀ b, i ≠ .crcUpdate b) → t.crc = s.crc) ∧
  (∀ (s t : State) (r : Response), step s = .next t → t.response = some r → r.code ≠ .ok → t.crc = s.crc)

/-! ### The LINK unit (41_transport.md) -/

/-- `classify` (R80), for every LINE_FAULT_SET. -/
def Obligations.ClassifyStatusByte : Prop :=
  ∀ (faults : List Byte) (s : Byte),
    classify faults s =
      if s = 0xF3#8 then .ready else if s = 0x31#8 then .busy else if s ∈ faults then .lineFault else .other

/-- The class codes, and the class and status in a LINK.CMD value: READY 0, BUSY 1, LINE_FAULT 2,
OTHER 3, no other (R82, D15). -/
def Obligations.StatusValueFields : Prop :=
  StatusClass.code .ready = 0#8 ∧ StatusClass.code .busy = 1#8 ∧ StatusClass.code .lineFault = 2#8 ∧
  StatusClass.code .other = 3#8 ∧
  ∀ (k : StatusClass) (s : Byte),
    (statusValue k s).extractLsb' 8 8 = k.code ∧ (statusValue k s).extractLsb' 0 8 = s ∧
    (statusValue k s).toNat < 0x400

/-- LINK.OPEN on a closed link at a legal rate opens the session and changes nothing else; 300 and 750 are
legal, every mode is (R84; D10, D11). -/
def Obligations.LinkOpenOpensASession : Prop :=
  ∀ (mode : BitVec 2) (khz : HalfWord) (s : State), s.linkcfg.isOpen = false →
    300 ≤ khz.toNat → khz.toNat ≤ 750 →
    exec (.linkOpen mode khz) s =
      .next { s with
        linkcfg := { isOpen := true, phase := .idle, mode := mode, clkKhz := khz }
        response := some ⟨.ok, 0#16, []⟩ }

/-- LINK.OPEN's two errors, ALREADY_OPEN before INVALID_ARGUMENT; neither changes anything but the
response (R84, R98; D10, D22). -/
def Obligations.LinkOpenErrors : Prop :=
  (∀ (mode : BitVec 2) (khz : HalfWord) (s : State), s.linkcfg.isOpen = true →
    exec (.linkOpen mode khz) s = .next { s with response := some ⟨.alreadyOpen, 0#16, []⟩ }) ∧
  (∀ (mode : BitVec 2) (khz : HalfWord) (s : State), s.linkcfg.isOpen = false →
    (khz.toNat < 300 ∨ 750 < khz.toNat) →
    exec (.linkOpen mode khz) s = .next { s with response := some ⟨.invalidArgument, 0#16, []⟩ })

/-- LINK.CLOSE on an open link, in either phase: OPEN 0, PHASE IDLE, MODE and CLK_KHZ kept, nothing sent
(R85; D10). -/
def Obligations.LinkCloseClosesTheSession : Prop :=
  ∀ s : State, s.linkcfg.isOpen = true →
    exec .linkClose s =
      .next { s with
        linkcfg := { isOpen := false, phase := .idle, mode := s.linkcfg.mode, clkKhz := s.linkcfg.clkKhz }
        response := some ⟨.ok, 0#16, []⟩ }

/-- LINK.CLOSE, LINK.CMD and LINK.XCHG on a closed link answer LINK_NOT_OPEN, an empty LINK.XCHG too
(R85 to R87, R98; D10, D22). -/
def Obligations.ClosedLinkIsRefused : Prop :=
  ∀ s : State, s.linkcfg.isOpen = false →
    exec .linkClose s = .next { s with response := some ⟨.linkNotOpen, 0#16, []⟩ } ∧
    (∀ c : Byte, exec (.linkCmd c) s = .next { s with response := some ⟨.linkNotOpen, 0#16, []⟩ }) ∧
    (∀ tx : List Byte, exec (.linkXchg tx) s = .next { s with response := some ⟨.linkNotOpen, 0#16, []⟩ })

/-- LINK.CMD (R86), in either phase, for every command byte: its encoding and its one decoding error, a
closed link, and the three outcomes of its exchange. An outcome the oracle has settled stands first in
`draws` (the model's choice, log entry 3), and the exchange goes on the record (log entry 8);
`ExchangeBehavesAsASettledOutcome` says the rest are no different. -/
def Obligations.LinkCmdResult : Prop :=
  (∀ w : Word, w &&& 0xFF00FFFF#32 = 0x12000000#32 →
    decodeWord w = .complete (.linkCmd (w.extractLsb' 16 8))) ∧
  (∀ (s : State) (w : Word) (rest : List Byte), s.stream = wordBytes w ++ rest →
    w.extractLsb' 24 8 = 0x12#8 → w.extractLsb' 0 16 ≠ 0#16 →
    step s = .next { s with stream := rest, response := some ⟨.illegalCommand, 0#16, []⟩ }) ∧
  (∀ (c : Byte) (s : State), s.linkcfg.isOpen = false →
    exec (.linkCmd c) s = .next { s with response := some ⟨.linkNotOpen, 0#16, []⟩ }) ∧
  (∀ (c status : Byte) (s : State) (ds : List PeerOutcome), s.linkcfg.isOpen = true →
    s.draws = .ok [status] :: ds →
    exec (.linkCmd c) s =
      .next { s with
        linkcfg := { s.linkcfg with phase := if classify s.lineFaultSet status = .ready then .data else .idle }
        response := some ⟨.ok,
          ((classify s.lineFaultSet status).code.zeroExtend 16 <<< 8) ||| status.zeroExtend 16, []⟩
        transfers := s.transfers ++ [⟨.command, [c], .ok [status]⟩]
        draws := ds
        drawCount := s.drawCount + 1 }) ∧
  (∀ (c : Byte) (s : State) (ds : List PeerOutcome), s.linkcfg.isOpen = true → s.draws = .timeout :: ds →
    exec (.linkCmd c) s =
      .next { s with
        linkcfg := { s.linkcfg with phase := .idle }
        response := some ⟨.transportTimeout, 0#16, []⟩
        transfers := s.transfers ++ [⟨.command, [c], .timeout⟩]
        draws := ds
        drawCount := s.drawCount + 1 }) ∧
  (∀ (c : Byte) (s : State) (ds : List PeerOutcome), s.linkcfg.isOpen = true → s.draws = .fault :: ds →
    exec (.linkCmd c) s =
      .next { s with
        linkcfg := { s.linkcfg with phase := .idle }
        response := some ⟨.transportFault, 0#16, []⟩
        transfers := s.transfers ++ [⟨.command, [c], .fault⟩]
        draws := ds
        drawCount := s.drawCount + 1 })

/-- LINK.XCHG in a data phase, N ≥ 1: the received bytes are the response's data and PHASE stays DATA; a
timeout or fault sets PHASE to IDLE and delivers nothing (R87; D12, D13). Settled outcomes in `draws` and the
record are the model's choice (log entries 3 and 8). -/
def Obligations.LinkXchgResult : Prop :=
  ∀ (tx : List Byte) (s : State) (ds : List PeerOutcome), s.linkcfg.isOpen = true →
    s.linkcfg.phase = .data → tx ≠ [] →
    (∀ rx : List Byte, rx.length = tx.length → s.draws = .ok rx :: ds →
      exec (.linkXchg tx) s =
        .next { s with
          response := some ⟨.ok, 0#16, rx⟩
          transfers := s.transfers ++ [⟨.data, tx, .ok rx⟩]
          draws := ds
          drawCount := s.drawCount + 1 }) ∧
    (s.draws = .timeout :: ds →
      exec (.linkXchg tx) s =
        .next { s with
          linkcfg := { s.linkcfg with phase := .idle }
          response := some ⟨.transportTimeout, 0#16, []⟩
          transfers := s.transfers ++ [⟨.data, tx, .timeout⟩]
          draws := ds
          drawCount := s.drawCount + 1 }) ∧
    (s.draws = .fault :: ds →
      exec (.linkXchg tx) s =
        .next { s with
          linkcfg := { s.linkcfg with phase := .idle }
          response := some ⟨.transportFault, 0#16, []⟩
          transfers := s.transfers ++ [⟨.data, tx, .fault⟩]
          draws := ds
          drawCount := s.drawCount + 1 })

/-- LINK.XCHG on an open link: N = 0 is INVALID_ARGUMENT in either phase; outside a data phase N ≥ 1 is
NOT_READY. Nothing is sent (R87, R98; 70_reset_and_hazards.md R117; D12, D18). -/
def Obligations.LinkXchgErrors : Prop :=
  ∀ s : State, s.linkcfg.isOpen = true →
    exec (.linkXchg []) s = .next { s with response := some ⟨.invalidArgument, 0#16, []⟩ } ∧
    (∀ tx : List Byte, tx ≠ [] → s.linkcfg.phase = .idle →
      exec (.linkXchg tx) s = .next { s with response := some ⟨.notReady, 0#16, []⟩ })

/-- Whatever the oracle does (settled or free), an exchange has one of R83's three outcomes, with as many
bytes received as sent, and the command then does what it does when that outcome was settled (D13, D14). The
model's choice: settled outcomes stand in `draws` (log entry 3), and one of another length is fitted to the
exchange (log entry 4). -/
def Obligations.ExchangeBehavesAsASettledOutcome : Prop :=
  (∀ (c : Byte) (s : State), s.linkcfg.isOpen = true →
    ∃ o : PeerOutcome,
      (o = .timeout ∨ o = .fault ∨ ∃ status, o = .ok [status]) ∧
      s.exchangeOutcome [c] = o ∧
      exec (.linkCmd c) s = exec (.linkCmd c) { s with draws := o :: s.draws.tail }) ∧
  (∀ (tx : List Byte) (s : State), s.linkcfg.isOpen = true → s.linkcfg.phase = .data → tx ≠ [] →
    ∃ o : PeerOutcome,
      (o = .timeout ∨ o = .fault ∨ ∃ rx, o = .ok rx ∧ rx.length = tx.length) ∧
      s.exchangeOutcome tx = o ∧
      exec (.linkXchg tx) s = exec (.linkXchg tx) { s with draws := o :: s.draws.tail })

/-- Every outcome R83 allows can happen at every exchange: any N bytes, a timeout, a fault (D13, D14). That it
happens by standing first in `draws` is the model's choice (log entry 3). -/
def Obligations.EveryOutcomeCanHappen : Prop :=
  ∀ (s : State) (tx rx : List Byte), rx.length = tx.length →
    ({ s with draws := [.ok rx] }).exchangeOutcome tx = .ok rx ∧
    ({ s with draws := [.timeout] }).exchangeOutcome tx = .timeout ∧
    ({ s with draws := [.fault] }).exchangeOutcome tx = .fault

/-- Byte slots (R76): a successful exchange receives exactly as many bytes as it sends, the settled byte of
slot i in slot i; the host gets those bytes in that order, and the sent ones are recorded in theirs. The slot
clause takes settled lists of any length: that a list of another length than the exchange is fitted to it is the
model's choice (log entry 4), as are settled outcomes and the record (log entries 3 and 8). -/
def Obligations.ExchangeByteSlots : Prop :=
  ∀ (s : State) (tx rx : List Byte), s.exchangeOutcome tx = .ok rx →
    rx.length = tx.length ∧
    (∀ (settled : List Byte) (ds : List PeerOutcome) (k : Nat), s.draws = .ok settled :: ds →
      k < tx.length → k < settled.length → rx[k]? = settled[k]?) ∧
    (s.linkcfg.isOpen = true → s.linkcfg.phase = .data → tx ≠ [] →
      ∃ t, exec (.linkXchg tx) s = .next t ∧ t.response = some ⟨.ok, 0#16, rx⟩ ∧
        t.transfers = s.transfers ++ [⟨.data, tx, .ok rx⟩])

/-- No byte goes onto the link when a check fails: an illegal word, a closed link, N = 0, PHASE not DATA,
or any command answered with an error that is not a transport error (R78). -/
def Obligations.NothingIsSentBeforeTheChecks : Prop :=
  (∀ (s t : State) (r : Response), step s = .next t → t.response = some r → r.code ≠ .ok →
    r.code ≠ .transportTimeout → r.code ≠ .transportFault →
    t.transfers = s.transfers ∧ t.draws = s.draws ∧ t.drawCount = s.drawCount) ∧
  (∀ (s : State) (w : Word) (rest : List Byte), s.stream = wordBytes w ++ rest →
    (∀ r ∈ opTable, w &&& r.mask ≠ r.pattern) → ∃ t, step s = .next t ∧ t.transfers = s.transfers) ∧
  (∀ s : State, s.linkcfg.isOpen = false → ∀ i : Instr, ∃ t, exec i s = .next t ∧ t.transfers = s.transfers) ∧
  (∀ s : State, ∃ t, exec (.linkXchg []) s = .next t ∧ t.transfers = s.transfers) ∧
  (∀ (s : State) (tx : List Byte), s.linkcfg.phase ≠ .data →
    ∃ t, exec (.linkXchg tx) s = .next t ∧ t.transfers = s.transfers)

/-- A step that keeps a session open keeps its MODE and CLK_KHZ: changing them takes LINK.CLOSE then
LINK.OPEN (41_transport.md, section 5). -/
def Obligations.OpenSessionKeepsItsConfiguration : Prop :=
  ∀ s t : State, step s = .next t → s.linkcfg.isOpen = true → t.linkcfg.isOpen = true →
    t.linkcfg.mode = s.linkcfg.mode ∧ t.linkcfg.clkKhz = s.linkcfg.clkKhz

/-- The histogram read and the power transactions on an open session, where the device answers READY and then
the data phase: the host gets the device's bytes, PHASE is left DATA, and both exchanges are on the record
(R91, R93; D16, D17). Settled outcomes and the record are the model's choice (log entries 3 and 8). -/
def Obligations.TransactionsDeliverTheirFrames : Prop :=
  ∀ (s : State) (rx : List Byte) (ds : List PeerOutcome), s.linkcfg.isOpen = true →
    s.draws = .ok [0xF3#8] :: .ok rx :: ds →
    let after (c : Byte) (tx : List Byte) : State :=
      { s with
        linkcfg := { s.linkcfg with phase := .data }
        response := some ⟨.ok, 0#16, rx⟩
        transfers := s.transfers ++ [⟨.command, [c], .ok [0xF3#8]⟩, ⟨.data, tx, .ok rx⟩]
        draws := ds
        drawCount := s.drawCount + 2 }
    (rx.length = 86 →
      execSeq histReadSeq s = .next (after Config.devCmdHist (List.replicate 86 Config.fillByte))) ∧
    (rx.length = 6 →
      execSeq powerStatusSeq s = .next (after Config.devCmdPower (List.replicate 6 Config.fillByte))) ∧
    (∀ opcode : Byte, rx.length = 1 →
      execSeq (powerSwitchSeq opcode) s = .next (after Config.devCmdPower [opcode]))

/-- A frame that the device sends to the flush and sends again afterwards, stale, is accepted both times: the two
reads and validations answer alike, 1 for a valid frame and 0 for another, and leave the registers alike. A valid
frame is correct, not fresh (R94; 70_reset_and_hazards.md R116). Settled outcomes and the record are the model's
choice (log entries 3 and 8). -/
def Obligations.AStaleFrameIsReadLikeAFreshOne : Prop :=
  ∀ (s : State) (frame : List Byte) (ds : List PeerOutcome) (validate : List Instr), s.linkcfg.isOpen = true →
    histValidateSeq frame = some validate →
    s.draws = .ok [0xF3#8] :: .ok frame :: .ok [0xF3#8] :: .ok frame :: ds →
    ∃ flushed again : State,
      execSeq histFlushSeq s = .next flushed ∧ flushed.response = some ⟨.ok, 0#16, frame⟩ ∧
      execSeq (validate ++ histReadSeq) flushed = .next again ∧ again.response = some ⟨.ok, 0#16, frame⟩ ∧
      again.linkcfg = flushed.linkcfg ∧
      ∃ first second : State,
        execSeq validate flushed = .next first ∧ execSeq validate again = .next second ∧
        first.response = some ⟨.ok, if histValid frame = true then 1#16 else 0#16, []⟩ ∧
        second.response = first.response ∧ second.crc = first.crc ∧ second.linkcfg = first.linkcfg

/-- Any number of BUSY answers and then READY: the last `link.cmd` answers READY and PHASE is DATA, as if the
device had answered READY at once (R86; 95_test_vectors.md W9 is n = 59). Settled outcomes and the record are the
model's choice (log entries 3 and 8). -/
def Obligations.BusyAnswersDoNotSpoilAReady : Prop :=
  ∀ (n : Nat) (c : Byte) (s : State) (ds : List PeerOutcome), s.linkcfg.isOpen = true →
    s.draws = List.replicate n (.ok [0x31#8]) ++ .ok [0xF3#8] :: ds →
    execSeq (List.replicate (n + 1) (.linkCmd c)) s =
      .next { s with
        linkcfg := { s.linkcfg with phase := .data }
        response := some ⟨.ok, 0x00F3#16, []⟩
        transfers := s.transfers ++ List.replicate n ⟨.command, [c], .ok [0x31#8]⟩ ++
          [⟨.command, [c], .ok [0xF3#8]⟩]
        draws := ds
        drawCount := s.drawCount + (n + 1) }

/-! ### Errors (60_exceptions.md) -/

/-- The u8 codes (R96; D22). -/
def Obligations.ResponseCodeBytes : Prop :=
  [Code.ok, .illegalCommand, .invalidArgument, .linkNotOpen, .alreadyOpen, .notReady, .transportTimeout,
    .transportFault].map Code.byte = [0x00#8, 0x01#8, 0x02#8, 0x03#8, 0x04#8, 0x05#8, 0x06#8, 0x07#8] ∧
  ∀ c : Code, c.byte.toNat < 8

/-- Every command ends with one response, whose code is one R96 lists for it; value and data are as R50
says: data only from a successful `link.xchg`, value 0 but for crc.read, crc.check and link.cmd. -/
def Obligations.EveryCommandEndsWithAResponse : Prop :=
  ∀ (i : Instr) (s : State), ∃ (t : State) (r : Response),
    exec i s = .next t ∧ t.response = some r ∧ r.code ∈ codesOf i ∧
    (r.code ≠ .ok → r.value = 0#16 ∧ r.data = []) ∧
    ((∀ tx, i ≠ .linkXchg tx) → r.data = []) ∧
    (i ≠ .crcRead → (∀ e0 e1, i ≠ .crcCheck e0 e1) → (∀ c, i ≠ .linkCmd c) → r.value = 0#16)

/-- Every step answers a next state: no command faults or is refused (93_implementation_defined.md,
section 1). -/
def Obligations.EveryStepAnswersANextState : Prop :=
  ∀ s : State, ∃ t : State, step s = .next t ∧
    (∀ i rest, decode s.stream = .command i rest → t.stream = rest ∧ t.response.isSome = true) ∧
    (∀ why rest, decode s.stream = .illegal why rest → t.stream = rest ∧ t.lastCode = some .illegalCommand)

/-- Errors are precise: but for the response, the state after an error is the state before, except PHASE
after a transport error (and the exchange, which did take place) (R97; D22). -/
def Obligations.ErrorsArePrecise : Prop :=
  ∀ (i : Instr) (s t : State) (r : Response), exec i s = .next t → t.response = some r → r.code ≠ .ok →
    (r.code ≠ .transportTimeout → r.code ≠ .transportFault → t = { s with response := some ⟨r.code, 0#16, []⟩ }) ∧
    (r.code = .transportTimeout ∨ r.code = .transportFault →
      ∃ sent, t = { s with
        linkcfg := { s.linkcfg with phase := .idle }
        response := some ⟨r.code, 0#16, []⟩
        transfers := s.transfers ++ [sent]
        draws := s.draws.tail
        drawCount := s.drawCount + 1 })

/-- The first error that applies is the one reported: session, then argument, then phase, then transport
(R98; D22). Illegal words come before them all: they never reach a command (`IllegalWordIsAnswered`). -/
def Obligations.ErrorPriority : Prop :=
  ∀ s : State,
    (∀ mode khz, ∃ t, exec (.linkOpen mode khz) s = .next t ∧ t.lastCode = some
      (if s.linkcfg.isOpen = true then .alreadyOpen
       else if khz.toNat < 300 ∨ 750 < khz.toNat then .invalidArgument else .ok)) ∧
    (∃ t, exec .linkClose s = .next t ∧
      t.lastCode = some (if s.linkcfg.isOpen = false then .linkNotOpen else .ok)) ∧
    (∀ c, ∃ t, exec (.linkCmd c) s = .next t ∧ t.lastCode = some
      (if s.linkcfg.isOpen = false then .linkNotOpen else outcomeCode (s.exchangeOutcome [c]))) ∧
    (∀ tx, ∃ t, exec (.linkXchg tx) s = .next t ∧ t.lastCode = some
      (if s.linkcfg.isOpen = false then .linkNotOpen
       else if tx.length = 0 then .invalidArgument
       else if s.linkcfg.phase ≠ .data then .notReady
       else outcomeCode (s.exchangeOutcome tx)))

/-! ### Invariants of the whole machine -/

/-- The invariant at reset. Its clause on LINE_FAULT_SET is 41_transport.md R81's for the default set (D15), held
in State by the model's choice (log entry 5); its clauses on the response and the record speak of the model's own
fields (log entries 7 and 8). -/
def Obligations.InvAtReset : Prop := StateInv State.reset

/-- Every step from a state with the invariant keeps it: PHASE DATA only in a session, an open session's
rate in 300..750, bare error responses, legal exchange lengths, a legal LINE_FAULT_SET. What a legal set is says
41_transport.md R81 (D15); that State holds it and no step writes it is the model's choice (log entry 5), and the
response and the record are the model's own fields (log entries 7 and 8). -/
def Obligations.EveryStepKeepsInv : Prop :=
  ∀ s t : State, StateInv s → step s = .next t → StateInv t

/-- The framing discipline at reset. -/
def Obligations.FramingAtReset : Prop := FramingInv State.reset

/-- No step breaks the framing: every data phase that ever went over the link followed a READY with no
transport error since, and PHASE is DATA only in that situation (10_state.md R18; 41_transport.md R79;
70_reset_and_hazards.md R117; D12). -/
def Obligations.EveryStepKeepsTheFraming : Prop :=
  ∀ s t : State, FramingInv s → step s = .next t → FramingInv t

/-- MODE and CLK_KHZ cannot be observed while no session is open: two machines that differ in nothing else
answer every command alike and stay so (10_state.md R19, R20; 41_transport.md R85; D11). -/
def Obligations.ClosedConfigurationIsUnobservable : Prop :=
  ∀ s t s' : State, SameButClosedConfig s t → step s = .next s' →
    ∃ t', step t = .next t' ∧ SameButClosedConfig s' t' ∧ t'.response = s'.response

/-! ### Buffers, the histogram frame, the assembler -/

/-- `MemRead` (20_memory.md R29): n bytes from an offset, little-endian, any width, an unsigned integer of 8n bits;
with the source's three examples (95_test_vectors.md W1 to W3) and the expected value of R30, which the spec marks
as its own derivation from R29. -/
def Obligations.BuffersReadLittleEndian : Prop :=
  (∀ (buf : List Byte) (off n : Nat), off + n ≤ buf.length →
    memRead buf off n = some (∑ i ∈ Finset.range n, (buf.getD (off + i) 0#8).toNat <<< (8 * i)) ∧
    ∑ i ∈ Finset.range n, (buf.getD (off + i) 0#8).toNat <<< (8 * i) < 2 ^ (8 * n)) ∧
  memRead [0x01#8, 0x00#8] 0 2 = some 1 ∧ memRead [0x00#8, 0x01#8] 0 2 = some 256 ∧
  memRead [0xFF#8, 0xFF#8] 0 2 = some 65535 ∧
  (∀ e0 e1 : Byte, memRead [e0, e1] 0 2 = some (expectedValue e0 e1).toNat)

/-- The fields of the histogram frame cover its 86 bytes exactly once, and the checksum is the last two
(20_memory.md R41; the order of the others is decision D19). -/
def Obligations.HistogramFieldsTileTheFrame : Prop :=
  (∀ k : Nat, k < 86 → ∃! f : HistField, f.offset ≤ k ∧ k < f.offset + f.width) ∧
  (∀ f : HistField, f.offset + f.width ≤ 86 ∧ (f ≠ .checksum → f.offset + f.width ≤ 84)) ∧
  HistField.offset .checksum = 84 ∧ HistField.width .checksum = 2

/-- `hist.validate R` is accepted exactly for 86 bytes, and its last answer is 1 exactly when R's trailing
little-endian checksum is the checksum of R[0..83] (R59; 41_transport.md R92). -/
def Obligations.HistValidateAnswersValidity : Prop :=
  ∀ (R : List Byte),
    (histValidateSeq R = none ↔ R.length ≠ 86) ∧
    ∀ (cmds : List Instr) (s : State), histValidateSeq R = some cmds →
      ∃ t, execSeq cmds s = .next t ∧
        t.response = some ⟨.ok, if checksum (R.take 84) = R.getD 85 0#8 ++ R.getD 84 0#8 then 1#16 else 0#16, []⟩ ∧
        (t.response = some ⟨.ok, 1#16, []⟩ ↔ histValid R = true)

/-- Whatever text the assembler accepts, its commands are well-formed and no `link.xchg` is empty
(30_encoding.md R54, R55; D3; log entry 17). -/
def Obligations.AssemblerEmitsCommandsOnly : Prop :=
  ∀ (text : List Char) (is : List Instr), assemble text = .ok is →
    ∀ i ∈ is, i.wellFormed = true ∧ i ≠ .linkXchg []
end

