-- ==== Sys2Proof/Laws/Checksum.lean ====
section
/-! SUPPORT. The small lemmas of the checksum functions and of command sequences. -/

namespace Sys2Proof.Machine

@[simp] theorem crcRun_nil (c : HalfWord) : crcRun c [] = c := rfl

@[simp] theorem crcRun_cons (c : HalfWord) (b : Byte) (bs : List Byte) :
    crcRun c (b :: bs) = crcRun (crcByte c b) bs := rfl

@[simp] theorem joinFrames_eq_flatten (fs : List (List Byte)) : joinFrames fs = fs.flatten := by
  induction fs with
  | nil => rfl
  | cons f fs ih => simp [joinFrames, ih]

/-- Running two command sequences one after the other (20_memory.md R43). -/
theorem execSeq_append (is js : List Instr) (s : State) :
    execSeq (is ++ js) s =
      match execSeq is s with
      | .next t => execSeq js t
      | .fault r => .fault r
      | .refused r => .refused r := by
  induction is generalizing s with
  | nil => rfl
  | cons i is ih =>
    simp only [List.cons_append, execSeq]
    cases exec i s <;> simp [ih]

end Sys2Proof.Machine
end

