-- ==== Sys2Proof/Laws/Decode.lean ====
section
/-! SUPPORT. The small lemmas of decoding and encoding. -/

namespace Sys2Proof

/-- `splitPayload` takes exactly the first `n` bytes when there are `n` (30_encoding.md R52). -/
theorem splitPayload_eq (n : Nat) (bs taken : List Byte) :
    splitPayload n bs taken =
      if n ≤ bs.length then some (taken.reverse ++ bs.take n, bs.drop n) else none := by
  induction n generalizing bs taken with
  | zero => simp [splitPayload]
  | succ n ih => cases bs <;> simp [splitPayload, ih]

/-- A payload is taken whole or the command is incomplete (R52). -/
theorem takePayload_eq (n : HalfWord) (bs : List Byte) :
    takePayload n bs =
      if n.toNat ≤ bs.length then .command (.linkXchg (bs.take n.toNat)) (bs.drop n.toNat)
      else .incomplete := by
  unfold takePayload
  rw [splitPayload_eq]
  split <;> rename_i h <;> split at h <;> simp_all

/-- The stream's four bytes of a word are that word (R46). -/
@[simp] theorem joinWord_of_fields (w : Word) :
    joinWord (w.extractLsb' 0 8) (w.extractLsb' 8 8) (w.extractLsb' 16 8) (w.extractLsb' 24 8) = w := by
  apply BitVec.eq_of_getLsbD_eq
  intro i hi
  simp only [joinWord, BitVec.getLsbD_append, BitVec.getLsbD_extractLsb']
  rcases (by omega : i < 8 ∨ (8 ≤ i ∧ i < 16) ∨ (16 ≤ i ∧ i < 24) ∨ 24 ≤ i) with h | ⟨l, h⟩ | ⟨l, h⟩ | l
  · have h2 : i < 16 := by omega
    have h3 : i < 24 := by omega
    simp [h, h2, h3]
  · have h3 : i < 24 := by omega
    have e : 8 + (i - 8) = i := by omega
    have n : ¬ i < 8 := by omega
    have m : i - 8 < 8 := by omega
    simp [n, h, h3, e, m]
  · have n : ¬ i < 8 := by omega
    have n2 : ¬ i < 16 := by omega
    have m : i - 16 < 8 := by omega
    have e : 16 + (i - 16) = i := by omega
    simp [n2, h, e, m]
  · have n : ¬ i < 8 := by omega
    have n2 : ¬ i < 16 := by omega
    have n3 : ¬ i < 24 := by omega
    have m : i - 24 < 8 := by omega
    have e : 24 + (i - 24) = i := by omega
    simp [n3, e, m]

/-- Decoding a stream that begins with a word's bytes reads that word (R46, R52). -/
theorem decode_wordBytes (w : Word) (bs : List Byte) :
    decode (wordBytes w ++ bs) =
      match decodeWord w with
      | .complete i => .command i bs
      | .payload n => takePayload n bs
      | .illegal why => .illegal why bs := by
  show (match decodeWord (joinWord _ _ _ _) with
    | .complete i => Decoded.command i bs
    | .payload n => takePayload n bs
    | .illegal why => .illegal why bs) = _
  rw [joinWord_of_fields]

/-! ### The fields of a word made of its parts (R45) -/

@[simp] theorem opField_makeWord (op a : Byte) (h : HalfWord) : opField (makeWord op a h) = op := by
  apply BitVec.eq_of_getLsbD_eq
  intro i hi
  simp only [opField, makeWord, BitVec.getLsbD_extractLsb', BitVec.getLsbD_append]
  simp [hi]

@[simp] theorem arg8Field_makeWord (op a : Byte) (h : HalfWord) : arg8Field (makeWord op a h) = a := by
  apply BitVec.eq_of_getLsbD_eq
  intro i hi
  simp only [arg8Field, makeWord, BitVec.getLsbD_extractLsb', BitVec.getLsbD_append]
  simp [hi]
  omega

@[simp] theorem arg16Field_makeWord (op a : Byte) (h : HalfWord) : arg16Field (makeWord op a h) = h := by
  apply BitVec.eq_of_getLsbD_eq
  intro i hi
  simp only [arg16Field, makeWord, BitVec.getLsbD_extractLsb', BitVec.getLsbD_append]
  simp [hi]
  omega

@[simp] theorem e0Field_makeWord (op a e0 e1 : Byte) : e0Field (makeWord op a (e1 ++ e0)) = e0 := by
  apply BitVec.eq_of_getLsbD_eq
  intro i hi
  have h1 : i < 16 := by omega
  simp only [e0Field, makeWord, BitVec.getLsbD_extractLsb', BitVec.getLsbD_append]
  simp [hi, h1]
  omega

@[simp] theorem e1Field_makeWord (op a e0 e1 : Byte) : e1Field (makeWord op a (e1 ++ e0)) = e1 := by
  apply BitVec.eq_of_getLsbD_eq
  intro i hi
  have h1 : 8 + i < 16 := by omega
  simp only [e1Field, makeWord, BitVec.getLsbD_extractLsb', BitVec.getLsbD_append]
  simp [hi, h1]
  omega

@[simp] theorem modeField_makeWord (op : Byte) (m : BitVec 2) (h : HalfWord) :
    modeField (makeWord op (0#6 ++ m) h) = m := by
  apply BitVec.eq_of_getLsbD_eq
  intro i hi
  simp only [modeField, makeWord, BitVec.getLsbD_extractLsb', BitVec.getLsbD_append]
  simp [hi]
  omega

@[simp] theorem openReservedField_makeWord (op : Byte) (m : BitVec 2) (h : HalfWord) :
    openReservedField (makeWord op (0#6 ++ m) h) = 0#6 := by
  apply BitVec.eq_of_getLsbD_eq
  intro i hi
  have h1 : ¬ 18 + i < 16 := by omega
  have h3 : ¬ 18 + i - 16 < 2 := by omega
  simp only [openReservedField, makeWord, BitVec.getLsbD_extractLsb', BitVec.getLsbD_append]
  simp [h1, h3]
  omega

end Sys2Proof
end

