-- ==== Sys2Proof/Laws/State.lean ====
section
/-! SUPPORT. One lemma per field per update of the state, all true by unfolding. -/

namespace Sys2Proof.Machine

@[simp] theorem State.setCrc_crc (s : State) (v : HalfWord) : (s.setCrc v).crc = v := rfl

@[simp] theorem State.setCrc_linkcfg (s : State) (v : HalfWord) : (s.setCrc v).linkcfg = s.linkcfg := rfl

@[simp] theorem State.setCrc_lineFaultSet (s : State) (v : HalfWord) : (s.setCrc v).lineFaultSet = s.lineFaultSet := rfl

@[simp] theorem State.setCrc_stream (s : State) (v : HalfWord) : (s.setCrc v).stream = s.stream := rfl

@[simp] theorem State.setCrc_response (s : State) (v : HalfWord) : (s.setCrc v).response = s.response := rfl

@[simp] theorem State.setCrc_transfers (s : State) (v : HalfWord) : (s.setCrc v).transfers = s.transfers := rfl

@[simp] theorem State.setCrc_draws (s : State) (v : HalfWord) : (s.setCrc v).draws = s.draws := rfl

@[simp] theorem State.setCrc_drawCount (s : State) (v : HalfWord) : (s.setCrc v).drawCount = s.drawCount := rfl

@[simp] theorem State.setPhase_crc (s : State) (p : Phase) : (s.setPhase p).crc = s.crc := rfl

@[simp] theorem State.setPhase_linkcfg (s : State) (p : Phase) :
    (s.setPhase p).linkcfg = { s.linkcfg with phase := p } := rfl

@[simp] theorem State.setPhase_lineFaultSet (s : State) (p : Phase) : (s.setPhase p).lineFaultSet = s.lineFaultSet := rfl

@[simp] theorem State.setPhase_stream (s : State) (p : Phase) : (s.setPhase p).stream = s.stream := rfl

@[simp] theorem State.setPhase_response (s : State) (p : Phase) : (s.setPhase p).response = s.response := rfl

@[simp] theorem State.setPhase_transfers (s : State) (p : Phase) : (s.setPhase p).transfers = s.transfers := rfl

@[simp] theorem State.setPhase_draws (s : State) (p : Phase) : (s.setPhase p).draws = s.draws := rfl

@[simp] theorem State.setPhase_drawCount (s : State) (p : Phase) : (s.setPhase p).drawCount = s.drawCount := rfl

@[simp] theorem State.openSession_crc (s : State) (m : BitVec 2) (k : HalfWord) :
    (s.openSession m k).crc = s.crc := rfl

@[simp] theorem State.openSession_linkcfg (s : State) (m : BitVec 2) (k : HalfWord) :
    (s.openSession m k).linkcfg = ⟨true, .idle, m, k⟩ := rfl

@[simp] theorem State.openSession_lineFaultSet (s : State) (m : BitVec 2) (k : HalfWord) :
    (s.openSession m k).lineFaultSet = s.lineFaultSet := rfl

@[simp] theorem State.openSession_stream (s : State) (m : BitVec 2) (k : HalfWord) :
    (s.openSession m k).stream = s.stream := rfl

@[simp] theorem State.openSession_response (s : State) (m : BitVec 2) (k : HalfWord) :
    (s.openSession m k).response = s.response := rfl

@[simp] theorem State.openSession_transfers (s : State) (m : BitVec 2) (k : HalfWord) :
    (s.openSession m k).transfers = s.transfers := rfl

@[simp] theorem State.openSession_draws (s : State) (m : BitVec 2) (k : HalfWord) :
    (s.openSession m k).draws = s.draws := rfl

@[simp] theorem State.openSession_drawCount (s : State) (m : BitVec 2) (k : HalfWord) :
    (s.openSession m k).drawCount = s.drawCount := rfl

@[simp] theorem State.closeSession_crc (s : State) : (s.closeSession).crc = s.crc := rfl

@[simp] theorem State.closeSession_linkcfg (s : State) :
    (s.closeSession).linkcfg = { s.linkcfg with isOpen := false, phase := .idle } := rfl

@[simp] theorem State.closeSession_lineFaultSet (s : State) : (s.closeSession).lineFaultSet = s.lineFaultSet := rfl

@[simp] theorem State.closeSession_stream (s : State) : (s.closeSession).stream = s.stream := rfl

@[simp] theorem State.closeSession_response (s : State) : (s.closeSession).response = s.response := rfl

@[simp] theorem State.closeSession_transfers (s : State) : (s.closeSession).transfers = s.transfers := rfl

@[simp] theorem State.closeSession_draws (s : State) : (s.closeSession).draws = s.draws := rfl

@[simp] theorem State.closeSession_drawCount (s : State) : (s.closeSession).drawCount = s.drawCount := rfl

@[simp] theorem State.respond_crc (s : State) (c : Code) (v : HalfWord) (d : List Byte) :
    (s.respond c v d).crc = s.crc := rfl

@[simp] theorem State.respond_linkcfg (s : State) (c : Code) (v : HalfWord) (d : List Byte) :
    (s.respond c v d).linkcfg = s.linkcfg := rfl

@[simp] theorem State.respond_lineFaultSet (s : State) (c : Code) (v : HalfWord) (d : List Byte) :
    (s.respond c v d).lineFaultSet = s.lineFaultSet := rfl

@[simp] theorem State.respond_stream (s : State) (c : Code) (v : HalfWord) (d : List Byte) :
    (s.respond c v d).stream = s.stream := rfl

@[simp] theorem State.respond_response (s : State) (c : Code) (v : HalfWord) (d : List Byte) :
    (s.respond c v d).response = some ⟨c, v, d⟩ := rfl

@[simp] theorem State.respond_transfers (s : State) (c : Code) (v : HalfWord) (d : List Byte) :
    (s.respond c v d).transfers = s.transfers := rfl

@[simp] theorem State.respond_draws (s : State) (c : Code) (v : HalfWord) (d : List Byte) :
    (s.respond c v d).draws = s.draws := rfl

@[simp] theorem State.respond_drawCount (s : State) (c : Code) (v : HalfWord) (d : List Byte) :
    (s.respond c v d).drawCount = s.drawCount := rfl

@[simp] theorem State.afterExchange_crc (s : State) (k : TransferKind) (tx : List Byte) :
    (s.afterExchange k tx).crc = s.crc := rfl

@[simp] theorem State.afterExchange_linkcfg (s : State) (k : TransferKind) (tx : List Byte) :
    (s.afterExchange k tx).linkcfg = s.linkcfg := rfl

@[simp] theorem State.afterExchange_lineFaultSet (s : State) (k : TransferKind) (tx : List Byte) :
    (s.afterExchange k tx).lineFaultSet = s.lineFaultSet := rfl

@[simp] theorem State.afterExchange_stream (s : State) (k : TransferKind) (tx : List Byte) :
    (s.afterExchange k tx).stream = s.stream := rfl

@[simp] theorem State.afterExchange_response (s : State) (k : TransferKind) (tx : List Byte) :
    (s.afterExchange k tx).response = s.response := rfl

@[simp] theorem State.afterExchange_transfers (s : State) (k : TransferKind) (tx : List Byte) :
    (s.afterExchange k tx).transfers = s.transfers ++ [⟨k, tx, s.exchangeOutcome tx⟩] := rfl

@[simp] theorem State.afterExchange_draws (s : State) (k : TransferKind) (tx : List Byte) :
    (s.afterExchange k tx).draws = s.draws.tail := rfl

@[simp] theorem State.afterExchange_drawCount (s : State) (k : TransferKind) (tx : List Byte) :
    (s.afterExchange k tx).drawCount = s.drawCount + 1 := rfl

@[simp] theorem State.setStream_crc (s : State) (r : List Byte) : (s.setStream r).crc = s.crc := rfl

@[simp] theorem State.setStream_linkcfg (s : State) (r : List Byte) : (s.setStream r).linkcfg = s.linkcfg := rfl

@[simp] theorem State.setStream_lineFaultSet (s : State) (r : List Byte) :
    (s.setStream r).lineFaultSet = s.lineFaultSet := rfl

@[simp] theorem State.setStream_stream (s : State) (r : List Byte) : (s.setStream r).stream = r := rfl

@[simp] theorem State.setStream_response (s : State) (r : List Byte) : (s.setStream r).response = s.response := rfl

@[simp] theorem State.setStream_transfers (s : State) (r : List Byte) : (s.setStream r).transfers = s.transfers := rfl

@[simp] theorem State.setStream_draws (s : State) (r : List Byte) : (s.setStream r).draws = s.draws := rfl

@[simp] theorem State.setStream_drawCount (s : State) (r : List Byte) : (s.setStream r).drawCount = s.drawCount := rfl

@[simp] theorem State.issue_crc (s : State) (b : List Byte) : (s.issue b).crc = s.crc := rfl

@[simp] theorem State.issue_linkcfg (s : State) (b : List Byte) : (s.issue b).linkcfg = s.linkcfg := rfl

@[simp] theorem State.issue_lineFaultSet (s : State) (b : List Byte) : (s.issue b).lineFaultSet = s.lineFaultSet := rfl

@[simp] theorem State.issue_stream (s : State) (b : List Byte) : (s.issue b).stream = s.stream ++ b := rfl

@[simp] theorem State.issue_response (s : State) (b : List Byte) : (s.issue b).response = s.response := rfl

@[simp] theorem State.issue_transfers (s : State) (b : List Byte) : (s.issue b).transfers = s.transfers := rfl

@[simp] theorem State.issue_draws (s : State) (b : List Byte) : (s.issue b).draws = s.draws := rfl

@[simp] theorem State.issue_drawCount (s : State) (b : List Byte) : (s.issue b).drawCount = s.drawCount := rfl

@[simp] theorem State.issueFirst_crc (s : State) (b : List Byte) : (s.issueFirst b).crc = s.crc := rfl

@[simp] theorem State.issueFirst_linkcfg (s : State) (b : List Byte) : (s.issueFirst b).linkcfg = s.linkcfg := rfl

@[simp] theorem State.issueFirst_lineFaultSet (s : State) (b : List Byte) :
    (s.issueFirst b).lineFaultSet = s.lineFaultSet := rfl

@[simp] theorem State.issueFirst_stream (s : State) (b : List Byte) : (s.issueFirst b).stream = b ++ s.stream := rfl

@[simp] theorem State.issueFirst_response (s : State) (b : List Byte) : (s.issueFirst b).response = s.response := rfl

@[simp] theorem State.issueFirst_transfers (s : State) (b : List Byte) : (s.issueFirst b).transfers = s.transfers := rfl

@[simp] theorem State.issueFirst_draws (s : State) (b : List Byte) : (s.issueFirst b).draws = s.draws := rfl

@[simp] theorem State.issueFirst_drawCount (s : State) (b : List Byte) : (s.issueFirst b).drawCount = s.drawCount := rfl

@[simp] theorem resetEvent_crc (s : State) (m : BitVec 2) (k : HalfWord) :
    (resetEvent m k s).crc = 0xFFFF#16 := rfl

@[simp] theorem resetEvent_linkcfg (s : State) (m : BitVec 2) (k : HalfWord) :
    (resetEvent m k s).linkcfg = ⟨false, .idle, m, k⟩ := rfl

@[simp] theorem resetEvent_lineFaultSet (s : State) (m : BitVec 2) (k : HalfWord) :
    (resetEvent m k s).lineFaultSet = s.lineFaultSet := rfl

@[simp] theorem resetEvent_stream (s : State) (m : BitVec 2) (k : HalfWord) :
    (resetEvent m k s).stream = s.stream := rfl

@[simp] theorem resetEvent_response (s : State) (m : BitVec 2) (k : HalfWord) :
    (resetEvent m k s).response = s.response := rfl

@[simp] theorem resetEvent_transfers (s : State) (m : BitVec 2) (k : HalfWord) :
    (resetEvent m k s).transfers = s.transfers := rfl

@[simp] theorem resetEvent_draws (s : State) (m : BitVec 2) (k : HalfWord) :
    (resetEvent m k s).draws = s.draws := rfl

@[simp] theorem resetEvent_drawCount (s : State) (m : BitVec 2) (k : HalfWord) :
    (resetEvent m k s).drawCount = s.drawCount := rfl

end Sys2Proof.Machine
end

