-- ==== Sys2Proof/Laws/Ops.lean ====
section
/-! SUPPORT. What each shared operation can do, said once. -/

namespace Sys2Proof.Machine

/-! ### Errors -/

/-- A non-transport error changes nothing but the response (60_exceptions.md R97). -/
theorem raise_of_not_transport {e : Code} (h : e.isTransport = false) (s : State) :
    raise e s = s.respond e 0#16 [] := by
  simp [raise, h]

/-- A transport error sets PHASE to IDLE, then responds (R97). -/
theorem raise_of_transport {e : Code} (h : e.isTransport = true) (s : State) :
    raise e s = (s.setPhase .idle).respond e 0#16 [] := by
  simp [raise, h]

@[simp] theorem raise_response (e : Code) (s : State) : (raise e s).response = some ⟨e, 0#16, []⟩ := rfl

@[simp] theorem raise_linkcfg (e : Code) (s : State) :
    (raise e s).linkcfg = if e.isTransport then { s.linkcfg with phase := .idle } else s.linkcfg := by
  cases h : e.isTransport <;> simp [raise, h]

@[simp] theorem raise_crc (e : Code) (s : State) : (raise e s).crc = s.crc := by
  cases h : e.isTransport <;> simp [raise, h]

@[simp] theorem raise_lineFaultSet (e : Code) (s : State) : (raise e s).lineFaultSet = s.lineFaultSet := by
  cases h : e.isTransport <;> simp [raise, h]

@[simp] theorem raise_stream (e : Code) (s : State) : (raise e s).stream = s.stream := by
  cases h : e.isTransport <;> simp [raise, h]

@[simp] theorem raise_transfers (e : Code) (s : State) : (raise e s).transfers = s.transfers := by
  cases h : e.isTransport <;> simp [raise, h]

@[simp] theorem raise_draws (e : Code) (s : State) : (raise e s).draws = s.draws := by
  cases h : e.isTransport <;> simp [raise, h]

@[simp] theorem raise_drawCount (e : Code) (s : State) : (raise e s).drawCount = s.drawCount := by
  cases h : e.isTransport <;> simp [raise, h]

/-! ### The exchange -/

/-- An exchange delivers as many bytes as it has slots (41_transport.md R76). -/
@[simp] theorem fillSlots_length (count n slot : Nat) (rx : List Byte) :
    (fillSlots count n slot rx).length = n := by
  induction n generalizing slot rx with
  | zero => rfl
  | succ n ih => cases rx <;> simp [fillSlots, ih]

/-- Settled bytes of the right number are delivered as they are. -/
theorem fillSlots_of_length (count slot : Nat) (rx : List Byte) : fillSlots count rx.length slot rx = rx := by
  induction rx generalizing slot with
  | nil => rfl
  | cons b bs ih => simp [fillSlots, ih]

/-- Whatever the oracle chose, the outcome of an exchange is `Ok` of equally many bytes, `Timeout` or
`Fault` (R83). -/
theorem exchangeOutcome_cases (s : State) (tx : List Byte) :
    (∃ rx, s.exchangeOutcome tx = .ok rx ∧ rx.length = tx.length) ∨
      s.exchangeOutcome tx = .timeout ∨ s.exchangeOutcome tx = .fault := by
  unfold State.exchangeOutcome
  cases s.oracle tx with
  | ok rx => exact .inl ⟨_, rfl, fillSlots_length _ _ _ _⟩
  | timeout => exact .inr (.inl rfl)
  | fault => exact .inr (.inr rfl)

/-- A settled outcome of the right length is what the exchange gives (R83: every outcome can be). -/
theorem exchangeOutcome_of_draw {s : State} {tx rx : List Byte} {ds : List PeerOutcome}
    (hd : s.draws = .ok rx :: ds) (hl : rx.length = tx.length) : s.exchangeOutcome tx = .ok rx := by
  simp [State.exchangeOutcome, State.oracle, hd, fitOutcome, ← hl, fillSlots_of_length]

theorem exchangeOutcome_of_timeout {s : State} {tx : List Byte} {ds : List PeerOutcome}
    (hd : s.draws = .timeout :: ds) : s.exchangeOutcome tx = .timeout := by
  simp [State.exchangeOutcome, State.oracle, hd, fitOutcome]

theorem exchangeOutcome_of_fault {s : State} {tx : List Byte} {ds : List PeerOutcome}
    (hd : s.draws = .fault :: ds) : s.exchangeOutcome tx = .fault := by
  simp [State.exchangeOutcome, State.oracle, hd, fitOutcome]

/-! ### Operands -/

/-- The legal link clocks are 300..750 kHz (41_transport.md R84). -/
theorem clockInRange_iff (khz : HalfWord) :
    clockInRange khz = true ↔ 300 ≤ khz.toNat ∧ khz.toNat ≤ 750 :=
  decide_eq_true_iff

/-- The low byte of an expected value is the byte received first (20_memory.md R30). -/
@[simp] theorem expectedValue_low (e0 e1 : Byte) : (expectedValue e0 e1).extractLsb' 0 8 = e0 := by
  apply BitVec.eq_of_getLsbD_eq
  intro i hi
  simp only [expectedValue, BitVec.getLsbD_append, BitVec.getLsbD_extractLsb']
  simp [hi]

/-- Its high byte is the byte received second. -/
@[simp] theorem expectedValue_high (e0 e1 : Byte) : (expectedValue e0 e1).extractLsb' 8 8 = e1 := by
  apply BitVec.eq_of_getLsbD_eq
  intro i hi
  simp only [expectedValue, BitVec.getLsbD_append, BitVec.getLsbD_extractLsb']
  simp [hi]

/-! ### Status classes -/

/-- Only the byte 0xF3 is READY, whatever the line-fault set (41_transport.md R80, R81). -/
theorem classify_eq_ready_iff (faults : List Byte) (status : Byte) :
    classify faults status = .ready ↔ status = Config.readyCode := by
  unfold classify
  by_cases h1 : status = Config.readyCode
  · simp [h1]
  · by_cases h2 : status = Config.busyCode
    · simp [h2, show Config.busyCode ≠ Config.readyCode by decide]
    · simp only [h1, h2, if_false, iff_false]
      split <;> simp

/-- PHASE becomes DATA exactly on the status READY (R86). -/
theorem classify_phase (faults : List Byte) (status : Byte) :
    (classify faults status).phase = if status = Config.readyCode then .data else .idle := by
  unfold classify
  split
  · rfl
  · split
    · rfl
    · split <;> rfl

/-! ### What a link command can do: each lemma is the whole list of its next states -/

theorem execLinkOpen_cases (mode : BitVec 2) (khz : HalfWord) (s : State) :
    (s.linkcfg.isOpen = true ∧ execLinkOpen mode khz s = .next (raise .alreadyOpen s)) ∨
      (s.linkcfg.isOpen = false ∧ clockInRange khz = true ∧
        execLinkOpen mode khz s = .next ((s.openSession mode khz).respond .ok 0#16 [])) ∨
      (s.linkcfg.isOpen = false ∧ clockInRange khz = false ∧
        execLinkOpen mode khz s = .next (raise .invalidArgument s)) := by
  cases ho : s.linkcfg.isOpen <;> cases hk : clockInRange khz <;> simp [execLinkOpen, ho, hk]

theorem execLinkClose_cases (s : State) :
    (s.linkcfg.isOpen = true ∧ execLinkClose s = .next (s.closeSession.respond .ok 0#16 [])) ∨
      (s.linkcfg.isOpen = false ∧ execLinkClose s = .next (raise .linkNotOpen s)) := by
  cases ho : s.linkcfg.isOpen <;> simp [execLinkClose, ho]

theorem execLinkCmd_cases (c : Byte) (s : State) :
    (s.linkcfg.isOpen = false ∧ execLinkCmd c s = .next (raise .linkNotOpen s)) ∨
      (s.linkcfg.isOpen = true ∧ s.exchangeOutcome [c] = .timeout ∧
        execLinkCmd c s = .next (raise .transportTimeout (s.afterExchange .command [c]))) ∨
      (s.linkcfg.isOpen = true ∧ s.exchangeOutcome [c] = .fault ∧
        execLinkCmd c s = .next (raise .transportFault (s.afterExchange .command [c]))) ∨
      (∃ status, s.linkcfg.isOpen = true ∧ s.exchangeOutcome [c] = .ok [status] ∧
        execLinkCmd c s = .next (finishCommand status (s.afterExchange .command [c]))) := by
  cases ho : s.linkcfg.isOpen
  · exact .inl ⟨rfl, by simp [execLinkCmd, ho]⟩
  · rcases exchangeOutcome_cases s [c] with ⟨rx, hr, hl⟩ | hr | hr
    · obtain ⟨status, rfl⟩ : ∃ status, rx = [status] := List.length_eq_one_iff.1 (by simpa using hl)
      exact .inr (.inr (.inr ⟨status, rfl, hr, by simp [execLinkCmd, ho, hr]⟩))
    · exact .inr (.inl ⟨rfl, hr, by simp [execLinkCmd, ho, hr]⟩)
    · exact .inr (.inr (.inl ⟨rfl, hr, by simp [execLinkCmd, ho, hr]⟩))

theorem execLinkXchg_cases (tx : List Byte) (s : State) :
    (s.linkcfg.isOpen = false ∧ execLinkXchg tx s = .next (raise .linkNotOpen s)) ∨
      (s.linkcfg.isOpen = true ∧ tx = [] ∧ execLinkXchg tx s = .next (raise .invalidArgument s)) ∨
      (s.linkcfg.isOpen = true ∧ tx ≠ [] ∧ s.linkcfg.phase = .idle ∧
        execLinkXchg tx s = .next (raise .notReady s)) ∨
      (s.linkcfg.isOpen = true ∧ tx ≠ [] ∧ s.linkcfg.phase = .data ∧
        ((s.exchangeOutcome tx = .timeout ∧
            execLinkXchg tx s = .next (raise .transportTimeout (s.afterExchange .data tx))) ∨
          (s.exchangeOutcome tx = .fault ∧
            execLinkXchg tx s = .next (raise .transportFault (s.afterExchange .data tx))) ∨
          ∃ rx, s.exchangeOutcome tx = .ok rx ∧ rx.length = tx.length ∧
            execLinkXchg tx s = .next ((s.afterExchange .data tx).respond .ok 0#16 rx))) := by
  cases ho : s.linkcfg.isOpen
  · exact .inl ⟨rfl, by simp [execLinkXchg, ho]⟩
  · cases tx with
    | nil => exact .inr (.inl ⟨rfl, rfl, by simp [execLinkXchg, ho]⟩)
    | cons b bs =>
      cases hp : s.linkcfg.phase
      · exact .inr (.inr (.inl ⟨rfl, by simp, rfl, by simp [execLinkXchg, ho, hp]⟩))
      · refine .inr (.inr (.inr ⟨rfl, by simp, rfl, ?_⟩))
        rcases exchangeOutcome_cases s (b :: bs) with ⟨rx, hr, hl⟩ | hr | hr
        · exact .inr (.inr ⟨rx, hr, hl, by simp [execLinkXchg, ho, hp, hr]⟩)
        · exact .inl ⟨hr, by simp [execLinkXchg, ho, hp, hr]⟩
        · exact .inr (.inl ⟨hr, by simp [execLinkXchg, ho, hp, hr]⟩)

end Sys2Proof.Machine
end

