-- ==== Sys2Proof/Laws/PerInstr.lean ====
section
/-! SUPPORT. A statement about every command as syntax, one lemma per constructor of `Instr`. -/

namespace Sys2Proof.Laws

/-- A command's stream bytes are its word's four bytes and its payload, and the word's OP is assigned
(30_encoding.md R46, R47). -/
def EncodeShape.Statement (i : Instr) : Prop :=
  (encode i).length = 4 + (payloadOf i).length ∧ ∃ r ∈ opTable, r.op = opField (encodeWord i)

/-- Four bytes of word, then the payload. -/
theorem encode_length (i : Instr) : (encode i).length = 4 + (payloadOf i).length := by
  rw [encode, List.length_append]
  rfl

/-- A command whose word is made with an assigned OP has the shape. -/
theorem encodeShape_of_word {i : Instr} {op arg8 : Byte} {arg16 : HalfWord}
    (hw : encodeWord i = makeWord op arg8 arg16) (ho : ∃ r ∈ opTable, r.op = op) : EncodeShape.Statement i :=
  ⟨encode_length i, by rwa [hw, opField_makeWord]⟩

theorem EncodeShape.crcInit : EncodeShape.Statement .crcInit := encodeShape_of_word rfl (by decide)

theorem EncodeShape.crcUpdate (b : Byte) : EncodeShape.Statement (.crcUpdate b) :=
  encodeShape_of_word rfl (by decide)

theorem EncodeShape.crcRead : EncodeShape.Statement .crcRead := encodeShape_of_word rfl (by decide)

theorem EncodeShape.crcCheck (e0 e1 : Byte) : EncodeShape.Statement (.crcCheck e0 e1) :=
  encodeShape_of_word rfl (by decide)

theorem EncodeShape.linkOpen (mode : BitVec 2) (khz : HalfWord) : EncodeShape.Statement (.linkOpen mode khz) :=
  encodeShape_of_word rfl (by decide)

theorem EncodeShape.linkClose : EncodeShape.Statement .linkClose := encodeShape_of_word rfl (by decide)

theorem EncodeShape.linkCmd (c : Byte) : EncodeShape.Statement (.linkCmd c) :=
  encodeShape_of_word rfl (by decide)

theorem EncodeShape.linkXchg (tx : List Byte) : EncodeShape.Statement (.linkXchg tx) :=
  encodeShape_of_word rfl (by decide)

end Sys2Proof.Laws
end

