-- ==== Sys2Proof/Tests/Slice0.lean ====
section
/-! SUPPORT. Tests of the model. Expected values come from spec/95_test_vectors.md (named V<n>, W<n> or
P<n> below) or are worked out by hand from the rule named. The last part shows, for each statement with
hypotheses, concrete values that meet them. -/

namespace Sys2Proof.Tests

open Sys2Proof Sys2Proof.Machine

/-! ### Helpers -/

/-- The next state of an outcome. -/
def nextOf (o : Host.Outcome State Fault Refusal) : Option State :=
  match o with
  | .next s => some s
  | .fault _ => none
  | .refused _ => none

/-- The response of an outcome's next state. -/
def answer (o : Host.Outcome State Fault Refusal) : Option Response := (nextOf o).bind (·.response)

/-- The CRC of an outcome's next state. -/
def crcOf (o : Host.Outcome State Fault Refusal) : Option HalfWord := (nextOf o).map (·.crc)

/-- The session fields of an outcome's next state. -/
def linkOf (o : Host.Outcome State Fault Refusal) : Option LinkCfg := (nextOf o).map (·.linkcfg)

/-- Reset with another CRC. -/
def withCrc (c : HalfWord) : State := { State.reset with crc := c }

/-- An open session at mode 0 and 300 kHz, in a phase, with settled outcomes. -/
def session (p : Phase) (draws : List PeerOutcome) : State :=
  { State.reset with linkcfg := ⟨true, p, 0#2, 300#16⟩, draws := draws }

/-- Reset with bytes in the command stream. -/
def streaming (bytes : List Byte) : State := State.reset.issue bytes

/-- `n` bytes counting up from `a`. -/
def bytesFrom (a n : Nat) : List Byte := (List.range' a n).map (BitVec.ofNat 8)

/-- The two test frames: bytes 00..53, and with their tail BF B9 (V8, V20). -/
def frame84 : List Byte := bytesFrom 0 84
def frame86 : List Byte := frame84 ++ [0xBF#8, 0xB9#8]

/-! ### WellFormed: the one check refuses an ill-formed term -/

theorem test_xchg_too_long_is_ill_formed : (Instr.linkXchg (List.replicate 65536 0#8)).wellFormed = false := by
  rw [Instr.wellFormed, List.length_replicate]; decide

theorem test_xchg_longest_is_well_formed : (Instr.linkXchg (List.replicate 65535 0#8)).wellFormed = true := by
  rw [Instr.wellFormed, List.length_replicate]; decide

/-! ### Decoding: words written out bit by bit from R47's patterns -/

theorem test_decode_crcInit :
    decodeWord 0b00000001000000000000000000000000#32 = .complete .crcInit := by decide
theorem test_decode_crcUpdate :
    decodeWord 0b00000010101010110000000000000000#32 = .complete (.crcUpdate 0xAB#8) := by decide
theorem test_decode_crcRead :
    decodeWord 0b00000011000000000000000000000000#32 = .complete .crcRead := by decide
/-- V16: the high byte of ARG16 is e1. -/
theorem test_decode_crcCheck :
    decodeWord 0b00000100000000000001001000110100#32 = .complete (.crcCheck 0x34#8 0x12#8) := by decide
/-- Polarity 1, phase 0: mode 2; 749 kHz (V17). -/
theorem test_decode_linkOpen :
    decodeWord 0b00010000000000100000001011101101#32 = .complete (.linkOpen 2#2 749#16) := by decide
theorem test_decode_linkClose :
    decodeWord 0b00010001000000000000000000000000#32 = .complete .linkClose := by decide
theorem test_decode_linkCmd :
    decodeWord 0b00010010010110100000000000000000#32 = .complete (.linkCmd 0x5A#8) := by decide
theorem test_decode_linkXchg :
    decodeWord 0b00010011000000000000000001010110#32 = .payload 86#16 := by decide

/-- V16's illegal words. -/
theorem test_decode_illegal :
    [0x00000000#32, 0x05000000#32, 0x20000000#32, 0xFF000000#32].map decodeWord =
      [.illegal (.unassignedOp 0x00#8), .illegal (.unassignedOp 0x05#8), .illegal (.unassignedOp 0x20#8),
       .illegal (.unassignedOp 0xFF#8)] ∧
    [0x01000001#32, 0x02AB0001#32, 0x03010000#32, 0x04FF1234#32].map decodeWord =
      [.illegal (.reservedBits 0x01000001#32), .illegal (.reservedBits 0x02AB0001#32),
       .illegal (.reservedBits 0x03010000#32), .illegal (.reservedBits 0x04FF1234#32)] ∧
    [0x10040000#32, 0x11000100#32, 0x12000001#32, 0x13010001#32].map decodeWord =
      [.illegal (.reservedBits 0x10040000#32), .illegal (.reservedBits 0x11000100#32),
       .illegal (.reservedBits 0x12000001#32), .illegal (.reservedBits 0x13010001#32)] := by decide

/-- V16's byte order. -/
theorem test_stream_bytes :
    wordBytes 0x0400C19B#32 = [0x9B#8, 0xC1#8, 0x00#8, 0x04#8] ∧
    wordBytes 0x100101F4#32 = [0xF4#8, 0x01#8, 0x01#8, 0x10#8] ∧
    wordBytes 0x13000056#32 = [0x56#8, 0x00#8, 0x00#8, 0x13#8] := by decide

/-- The payload stops after N bytes; an illegal `link.xchg` word takes none (R52). -/
theorem test_decode_payload :
    decode [0x02#8, 0#8, 0#8, 0x13#8, 0xAA#8, 0xBB#8, 0xCC#8] = .command (.linkXchg [0xAA#8, 0xBB#8]) [0xCC#8] ∧
    decode [0x01#8, 0#8, 1#8, 0x13#8, 0xAA#8] = .illegal (.reservedBits 0x13010001#32) [0xAA#8] ∧
    decode [0x00#8, 0#8, 0#8, 0x13#8, 0xAA#8] = .command (.linkXchg []) [0xAA#8] := by decide

theorem test_encode_words :
    [Instr.crcInit, .crcUpdate 0xAB#8, .crcRead, .crcCheck 0xC5#8 0xCD#8, .linkOpen 1#2 500#16, .linkClose,
      .linkCmd 0x5A#8, .linkXchg [0xFF#8, 0xFF#8]].map encodeWord =
    [0x01000000#32, 0x02AB0000#32, 0x03000000#32, 0x0400CDC5#32, 0x100101F4#32, 0x11000000#32, 0x125A0000#32,
      0x13000002#32] := by decide

/-! ### The checksum -/

/-- V2. -/
theorem test_crcByte_from_initial :
    [0x00#8, 0x01#8, 0x80#8, 0xFF#8, 0xF3#8, 0x31#8, 0x63#8, 0xE6#8, 0x41#8].map (crcByte 0xFFFF#16) =
    [0x40BF#16, 0x807E#16, 0xE0BE#16, 0x00FF#16, 0x05FF#16, 0x947E#16, 0x69FF#16, 0xCA3E#16, 0x707F#16] := by
  decide

/-- V3, the trace of byte 01. -/
theorem test_crcShift_trace :
    [0xFFFE#16, 0x7FFF#16, 0x9FFE#16, 0x4FFF#16, 0x87FE#16, 0x43FF#16, 0x81FE#16, 0x40FF#16].map crcShift =
    [0x7FFF#16, 0x9FFE#16, 0x4FFF#16, 0x87FE#16, 0x43FF#16, 0x81FE#16, 0x40FF#16, 0x807E#16] := by decide

/-- V9, V10, V13. -/
theorem test_checksum_short :
    [[0xDE#8, 0xAD#8, 0xBE#8, 0xEF#8], [0xDE#8, 0xAD#8, 0xBE#8, 0xEE#8], [0xF3#8, 0xF3#8],
      [0x01#8, 0x03#8, 0x00#8, 0x00#8, 0x00#8, 0x0A#8], [0x01#8, 0x7E#8, 0x80#8]].map checksum =
    [0xC19B#16, 0x015A#16, 0x0505#16, 0xCDC5#16, 0x0000#16] := by decide +kernel

/-- A long input is run in pieces, so that no kernel evaluation is long. -/
theorem crcRun_piece {c d : HalfWord} {piece : List Byte} (h : crcRun c piece = d) (rest : List Byte) :
    crcRun c (piece ++ rest) = crcRun d rest := by
  subst h
  induction piece generalizing c with
  | nil => rfl
  | cons b bs ih => exact ih

/-- The register after each twelve of the bytes 00..53, worked out by a separate program following R61. -/
theorem test_pieces :
    crcRun 0xFFFF#16 (bytesFrom 0 12) = 0x94A1#16 ∧ crcRun 0x94A1#16 (bytesFrom 12 12) = 0x6F41#16 ∧
    crcRun 0x6F41#16 (bytesFrom 24 12) = 0x47AF#16 ∧ crcRun 0x47AF#16 (bytesFrom 36 12) = 0xCD10#16 ∧
    crcRun 0xCD10#16 (bytesFrom 48 12) = 0x8045#16 ∧ crcRun 0x8045#16 (bytesFrom 60 12) = 0x582C#16 ∧
    crcRun 0x582C#16 (bytesFrom 72 12) = 0xB9BF#16 := by decide +kernel

/-- V8: the checksum of 00..53. -/
theorem test_checksum_long : checksum frame84 = 0xB9BF#16 := by
  have e : frame84 = bytesFrom 0 12 ++ (bytesFrom 12 12 ++ (bytesFrom 24 12 ++ (bytesFrom 36 12 ++
      (bytesFrom 48 12 ++ (bytesFrom 60 12 ++ bytesFrom 72 12))))) := by decide
  obtain ⟨h0, h1, h2, h3, h4, h5, h6⟩ := test_pieces
  rw [checksum, e, show Config.crcInitValue = 0xFFFF#16 from rfl, crcRun_piece h0, crcRun_piece h1,
    crcRun_piece h2, crcRun_piece h3, crcRun_piece h4, crcRun_piece h5, h6]

/-- V5, and exactly two expected bytes. -/
theorem test_verify_empty :
    verifyBytes [0xFF#8, 0xFF#8] [] = some true ∧ verifyBytes [0xFF#8, 0xFF#8] [[], []] = some true ∧
    verifyBytes [0#8, 0#8] [] = some false ∧ verifyBytes [0xFF#8] [] = none := by decide

/-! ### One step of each command -/

/-- V7. -/
theorem test_crcInit : crcOf (exec .crcInit (withCrc 0x1234#16)) = some 0xFFFF#16 := by decide
theorem test_crcInit_answer : answer (exec .crcInit (withCrc 0x1234#16)) = some ⟨.ok, 0#16, []⟩ := by decide
theorem test_crcUpdate : crcOf (exec (.crcUpdate 0x01#8) (withCrc 0xFFFF#16)) = some 0x807E#16 := by decide
theorem test_crcUpdate_zero : crcOf (exec (.crcUpdate 0x00#8) (withCrc 0x807E#16)) = some 0x2000#16 := by decide
theorem test_crcRead : answer (exec .crcRead (withCrc 0x2000#16)) = some ⟨.ok, 0x2000#16, []⟩ := by decide
theorem test_crcRead_keeps : crcOf (exec .crcRead (withCrc 0x2000#16)) = some 0x2000#16 := by decide

/-- V6. -/
theorem test_crcCheck :
    answer (exec (.crcCheck 0xC5#8 0xCD#8) (withCrc 0xCDC5#16)) = some ⟨.ok, 1#16, []⟩ ∧
    answer (exec (.crcCheck 0xCD#8 0xC5#8) (withCrc 0xCDC5#16)) = some ⟨.ok, 0#16, []⟩ ∧
    answer (exec (.crcCheck 0xBF#8 0xB8#8) (withCrc 0xB9BF#16)) = some ⟨.ok, 0#16, []⟩ := by decide

/-- V17. -/
theorem test_linkOpen :
    linkOf (exec (.linkOpen 1#2 500#16) State.reset) = some ⟨true, .idle, 1#2, 500#16⟩ ∧
    linkOf (exec (.linkOpen 3#2 750#16) State.reset) = some ⟨true, .idle, 3#2, 750#16⟩ ∧
    answer (exec (.linkOpen 0#2 300#16) State.reset) = some ⟨.ok, 0#16, []⟩ := by decide
theorem test_linkOpen_errors :
    answer (exec (.linkOpen 0#2 299#16) State.reset) = some ⟨.invalidArgument, 0#16, []⟩ ∧
    answer (exec (.linkOpen 0#2 751#16) State.reset) = some ⟨.invalidArgument, 0#16, []⟩ ∧
    answer (exec (.linkOpen 0#2 299#16) (session .idle [])) = some ⟨.alreadyOpen, 0#16, []⟩ ∧
    linkOf (exec (.linkOpen 1#2 500#16) (session .data [])) = some ⟨true, .data, 0#2, 300#16⟩ := by decide

/-- V18; MODE and CLK_KHZ are kept (P5). -/
theorem test_linkClose :
    linkOf (exec .linkClose (session .data [])) = some ⟨false, .idle, 0#2, 300#16⟩ ∧
    answer (exec .linkClose State.reset) = some ⟨.linkNotOpen, 0#16, []⟩ := by decide

/-- V15, V18. -/
theorem test_linkCmd :
    answer (exec (.linkCmd 0x5A#8) (session .idle [.ok [0xF3#8]])) = some ⟨.ok, 0x00F3#16, []⟩ ∧
    linkOf (exec (.linkCmd 0x5A#8) (session .idle [.ok [0xF3#8]])) = some ⟨true, .data, 0#2, 300#16⟩ ∧
    answer (exec (.linkCmd 0x5A#8) (session .data [.ok [0x31#8]])) = some ⟨.ok, 0x0131#16, []⟩ ∧
    linkOf (exec (.linkCmd 0x5A#8) (session .data [.ok [0x31#8]])) = some ⟨true, .idle, 0#2, 300#16⟩ ∧
    answer (exec (.linkCmd 0x11#8) (session .idle [.ok [0x63#8]])) = some ⟨.ok, 0x0263#16, []⟩ ∧
    answer (exec (.linkCmd 0x5A#8) (session .idle [.ok [0x5A#8]])) = some ⟨.ok, 0x035A#16, []⟩ := by decide

/-- V19. -/
theorem test_linkCmd_transport_errors :
    answer (exec (.linkCmd 0x5A#8) (session .data [.timeout])) = some ⟨.transportTimeout, 0#16, []⟩ ∧
    linkOf (exec (.linkCmd 0x5A#8) (session .data [.timeout])) = some ⟨true, .idle, 0#2, 300#16⟩ ∧
    answer (exec (.linkCmd 0x5A#8) (session .data [.fault])) = some ⟨.transportFault, 0#16, []⟩ ∧
    answer (exec (.linkCmd 0x5A#8) State.reset) = some ⟨.linkNotOpen, 0#16, []⟩ := by decide

/-- V18, V19. -/
theorem test_linkXchg :
    answer (exec (.linkXchg [0xAA#8]) (session .data [.ok [0x55#8]])) = some ⟨.ok, 0#16, [0x55#8]⟩ ∧
    linkOf (exec (.linkXchg [0xAA#8]) (session .data [.ok [0x55#8]])) = some ⟨true, .data, 0#2, 300#16⟩ ∧
    answer (exec (.linkXchg [0xAA#8]) (session .data [.fault])) = some ⟨.transportFault, 0#16, []⟩ ∧
    linkOf (exec (.linkXchg [0xAA#8]) (session .data [.timeout])) = some ⟨true, .idle, 0#2, 300#16⟩ := by decide
theorem test_linkXchg_errors :
    answer (exec (.linkXchg []) State.reset) = some ⟨.linkNotOpen, 0#16, []⟩ ∧
    answer (exec (.linkXchg []) (session .idle [])) = some ⟨.invalidArgument, 0#16, []⟩ ∧
    answer (exec (.linkXchg []) (session .data [])) = some ⟨.invalidArgument, 0#16, []⟩ ∧
    answer (exec (.linkXchg [0xAA#8]) (session .idle [.ok [0x55#8]])) = some ⟨.notReady, 0#16, []⟩ ∧
    (nextOf (exec (.linkXchg [0xAA#8]) (session .idle [.ok [0x55#8]]))).map (·.transfers) = some [] := by decide

/-- V15's last remark: LINE_FAULT_SET is a parameter. -/
theorem test_line_fault_set_is_a_parameter :
    classify [0x00#8, 0x63#8, 0xE6#8, 0xFF#8] 0xFF#8 = .lineFault ∧
    classify Config.lineFaultDefault 0xFF#8 = .other ∧ classify [0xF3#8, 0x31#8] 0xF3#8 = .ready := by decide

/-- V17, V18: an illegal word outranks every other error and takes four bytes. -/
theorem test_illegal_word_step :
    answer (step ((session .data []).issue [0x00#8, 0x00#8, 0x04#8, 0x10#8, 0x99#8])) =
      some ⟨.illegalCommand, 0#16, []⟩ ∧
    (nextOf (step ((session .data []).issue [0x00#8, 0x00#8, 0x04#8, 0x10#8, 0x99#8]))).map (·.stream) =
      some [0x99#8] := by decide

/-- The payload of a refused exchange is consumed unsent (R87, V18). -/
theorem test_refused_payload_is_consumed :
    (nextOf (step (streaming [0x01#8, 0#8, 0#8, 0x13#8, 0xAA#8, 0x00#8]))).map (·.stream) = some [0x00#8] := by
  decide

/-- The images of V17's state after `link.open 2, 749` and of reset (R16). -/
theorem test_linkcfg_word :
    LinkCfg.word ⟨true, .data, 2#2, 749#16⟩ = 0b00000010111011010000000000001011#32 ∧
    State.reset.linkcfg.word = 0#32 := by decide

/-! ### Programs over the stream -/

/-- P4, commands 4 to 8. -/
theorem test_accumulator_hazard :
    answer (execSeq [.crcUpdate 0x00#8, .crcCheck 0xBF#8 0x40#8] (withCrc 0x807E#16)) = some ⟨.ok, 0#16, []⟩ ∧
    answer (execSeq (verifySeq 0xBF#8 0x40#8 [[0x00#8]]) (withCrc 0x2000#16)) = some ⟨.ok, 1#16, []⟩ := by decide

/-- The host's probe: a table row's bits with zeros above, also the longest exchange. -/
theorem test_table_word :
    decodeTableWord 32 0x0400CDC5 = some (.crcCheck 0xC5#8 0xCD#8) ∧
    decodeTableWord 32 0x13000002 = some (.linkXchg [0#8, 0#8]) ∧ decodeTableWord 32 0x12000001 = none := by decide
theorem test_fetch_word :
    crcOf (step (State.reset.withFetchWord 32 0x02010000)) = some 0x807E#16 := by decide

/-! ### Frames and text -/

/-- V20. -/
theorem test_histogram_fields :
    [HistField.bin 0, .bin 23, .timeOfFlight 3, .samplingTime, .flowRate, .temperature, .humidity, .reject 0,
      .fanRevolutions, .laserStatus, .checksum].map (histField frame86) =
    [some 256, some 12078, some 0x33, some 13620, some 14134, some 0x3938, some 0x3B3A, some 0x4948, some 0x5150,
      some 21330, some 0xB9BF] := by decide

/-- V20: this frame is valid. -/
theorem test_histogram_valid : histValid frame86 = true := by
  have c : joinFrames [histCovered frame86] = frame84 := by decide
  have l : frame86.length = Config.histFrameLen := by decide
  have e : expectedValue (frame86.getD 84 0#8) (frame86.getD 85 0#8) = 0xB9BF#16 := by decide
  rw [histValid, verify, c, test_checksum_long, e, l]
  decide

/-- W1 to W3. -/
theorem test_join_le :
    memRead [0x01#8, 0x00#8] 0 2 = some 1 ∧ memRead [0x00#8, 0x01#8] 0 2 = some 256 ∧
    memRead [0xFF#8, 0xFF#8] 0 2 = some 65535 ∧ memRead [0xFF#8, 0xFF#8] 1 2 = none := by decide

/-- The lines of R54's listing, R55's copies, R58's pseudo-instructions. -/
theorem test_assemble_lines :
    assembleLine "crc.check 0xC5, 0xCD ; V6".toList = .ok [.crcCheck 0xC5#8 0xCD#8] ∧
    assembleLine "link.open 1, 500".toList = .ok [.linkOpen 1#2 500#16] ∧
    assembleLine "link.xchg 0xFF x 3, 7".toList = .ok [.linkXchg [0xFF#8, 0xFF#8, 0xFF#8, 7#8]] ∧
    assembleLine "link.read 2, 0xFF".toList = .ok [.linkXchg [0xFF#8, 0xFF#8]] ∧
    assembleLine "verify [0xFF, 0xFF], [1], []".toList = .ok [.crcInit, .crcUpdate 1#8, .crcCheck 0xFF#8 0xFF#8] ∧
    assembleLine "; nothing".toList = .ok [] := by decide

/-- R55 and R59's refusals; a rate outside 300..750 is the block's to refuse; no copies where the number of
operands is fixed (log entry 17). -/
theorem test_assemble_refusals :
    assembleLine "crc.update 256".toList = .error .operandOutOfRange ∧
    assembleLine "link.open 4, 500".toList = .error .operandOutOfRange ∧
    assembleLine "link.open 0, 299".toList = .ok [.linkOpen 0#2 299#16] ∧
    assembleLine "link.xchg".toList = .error .wrongOperands ∧
    assembleLine "crc.check 0xFF x 2".toList = .error .wrongOperands ∧
    assembleLine "CRC.INIT".toList = .error .unknownMnemonic ∧
    assembleLine "hist.validate [1, 2]".toList = .error .wrongOperands := by decide

/-! ### Hypotheses that are met: one theorem per statement that has any -/

/-- A session in its data phase, whose history says so. -/
def readySession (draws : List PeerOutcome) : State :=
  { session .data draws with transfers := [⟨.command, [0x5A#8], .ok [0xF3#8]⟩], drawCount := 1 }

theorem witness_DecodeOfEncodeIsTheCommand :
    (Instr.linkXchg (List.replicate 65535 0xAA#8)).wellFormed = true ∧
    (Instr.linkOpen 3#2 65535#16).wellFormed = true := by
  refine ⟨?_, rfl⟩
  rw [Instr.wellFormed, List.length_replicate]; decide

theorem witness_DecodedBytesAreTheEncoding :
    decode [0x01#8, 0#8, 0#8, 0x13#8, 0xAA#8, 0x99#8] = .command (.linkXchg [0xAA#8]) [0x99#8] := by decide

/-- The last word of each row. -/
theorem witness_DecoderAgreesWithMatchMaskTable :
    0x01000000#32 &&& 0xFFFFFFFF#32 = 0x01000000#32 ∧ 0x02FF0000#32 &&& 0xFF00FFFF#32 = 0x02000000#32 ∧
    0x03000000#32 &&& 0xFFFFFFFF#32 = 0x03000000#32 ∧ 0x0400FFFF#32 &&& 0xFFFF0000#32 = 0x04000000#32 ∧
    0x1003FFFF#32 &&& 0xFFFC0000#32 = 0x10000000#32 ∧ 0x11000000#32 &&& 0xFFFFFFFF#32 = 0x11000000#32 ∧
    0x12FF0000#32 &&& 0xFF00FFFF#32 = 0x12000000#32 ∧ 0x1300FFFF#32 &&& 0xFFFF0000#32 = 0x13000000#32 ∧
    (∀ r ∈ opTable, 0x10040000#32 &&& r.mask ≠ r.pattern) ∧
    (∃ r ∈ opTable, 0x1003FFFF#32 &&& r.mask = r.pattern) := by decide

theorem witness_CommandBytesAndLength :
    (∃ tx, Instr.linkXchg [0xAA#8] = .linkXchg tx) ∧ (∀ tx, Instr.crcInit ≠ .linkXchg tx) :=
  ⟨⟨_, rfl⟩, fun _ => nofun⟩

theorem witness_StepRunsTheDecodedCommand :
    decode (streaming [0xF4#8, 0x01#8, 0x01#8, 0x10#8, 0x99#8]).stream = .command (.linkOpen 1#2 500#16) [0x99#8] ∧
    (Instr.linkOpen 1#2 500#16).wellFormed = true := by decide

/-- Reserved bits set, and an unassigned OP. -/
theorem witness_IllegalWordIsAnswered :
    (streaming [0x00#8, 0x00#8, 0x04#8, 0x10#8, 0x99#8]).stream = wordBytes 0x10040000#32 ++ [0x99#8] ∧
    (∀ r ∈ opTable, 0x10040000#32 &&& r.mask ≠ r.pattern) ∧
    (streaming [0x00#8, 0x00#8, 0x00#8, 0x00#8]).stream = wordBytes 0x00000000#32 ++ [] ∧
    (∀ r ∈ opTable, 0x00000000#32 &&& r.mask ≠ r.pattern) := by decide

/-- One byte short, in the word and in the payload. -/
theorem witness_BlockWaitsForAWholeCommand :
    decode (streaming [0x02#8, 0#8, 0#8, 0x13#8, 0xAA#8]).stream = .incomplete ∧
    [0x00#8, 0x00#8, 0x00#8].length < 4 ∧ [0xAA#8].length < (2#16).toNat := by decide

theorem witness_StreamRunsInIssueOrder :
    (∀ i ∈ [Instr.crcInit, .linkXchg [0xAA#8], .crcRead], i.wellFormed = true) ∧
    (streaming [0#8, 0#8, 0#8, 1#8, 1#8, 0#8, 0#8, 0x13#8, 0xAA#8, 0#8, 0#8, 0#8, 3#8, 0x99#8]).stream =
      encodeAll [.crcInit, .linkXchg [0xAA#8], .crcRead] ++ [0x99#8] := by decide

theorem witness_CrcByteIsInjective :
    crcByte 0x1234#16 0x56#8 = crcByte 0x1234#16 0x56#8 := rfl

/-- The last bit of the one covered byte; R118's frame [01]. -/
theorem witness_SingleBitErrorsAreDetected :
    0 < (joinFrames [[0x01#8]]).length ∧ 7 < 8 ∧
    joinFrames [[0x81#8]] = (joinFrames [[0x01#8]]).modify 0 (fun b => b ^^^ (1#8 <<< 7)) ∧
    verify 0x7E#8 0x80#8 [[0x01#8]] = true := by decide

theorem witness_CrcInitResult :
    (streaming [0x01#8, 0#8, 0#8, 0x01#8]).stream = wordBytes 0x01000001#32 ++ [] ∧
    (0x01000001#32).extractLsb' 24 8 = 0x01#8 ∧ 0x01000001#32 ≠ 0x01000000#32 := by decide

theorem witness_CrcUpdateResult :
    0x02FF0000#32 &&& 0xFF00FFFF#32 = 0x02000000#32 ∧
    (streaming [0x01#8, 0#8, 0xAB#8, 0x02#8]).stream = wordBytes 0x02AB0001#32 ++ [] ∧
    (0x02AB0001#32).extractLsb' 24 8 = 0x02#8 ∧ (0x02AB0001#32).extractLsb' 0 16 ≠ 0#16 := by decide

theorem witness_CrcReadResult :
    (streaming [0#8, 0#8, 0x01#8, 0x03#8]).stream = wordBytes 0x03010000#32 ++ [] ∧
    (0x03010000#32).extractLsb' 24 8 = 0x03#8 ∧ 0x03010000#32 ≠ 0x03000000#32 := by decide

theorem witness_CrcCheckResult :
    0x0400FFFF#32 &&& 0xFFFF0000#32 = 0x04000000#32 ∧
    (streaming [0x34#8, 0x12#8, 0xFF#8, 0x04#8]).stream = wordBytes 0x04FF1234#32 ++ [] ∧
    (0x04FF1234#32).extractLsb' 24 8 = 0x04#8 ∧ (0x04FF1234#32).extractLsb' 16 8 ≠ 0#8 ∧
    (withCrc 0xCDC5#16).crc = 0xCDC5#16 ∧ 0xC5#8 ≠ 0xCD#8 := by decide

/-- The premise of `CrcCheckResult`'s clause on swapped bytes. -/
theorem witness_CrcCheckResult_match :
    exec (.crcCheck 0xC5#8 0xCD#8) (withCrc 0xCDC5#16) =
      .next { withCrc 0xCDC5#16 with response := some ⟨.ok, 1#16, []⟩ } := rfl

/-- Two states with one CRC, one with a session and one without. -/
theorem witness_CrcCommandsDependOnCrcOnly :
    isCrcCommand (.crcCheck 0#8 0#8) = true ∧ (session .data []).crc = State.reset.crc ∧
    session .data [] ≠ State.reset ∧ (∃ e0 e1, Instr.crcCheck 0#8 0#8 = .crcCheck e0 e1) :=
  ⟨rfl, rfl, by decide, ⟨_, _, rfl⟩⟩

theorem witness_OnlyInitAndUpdateWriteCrc :
    (∃ t, exec .linkClose (withCrc 0x1234#16) = .next t) ∧ Instr.linkClose ≠ .crcInit ∧
    (∀ b, Instr.linkClose ≠ .crcUpdate b) ∧
    (∃ t, step (streaming [0#8, 0#8, 0#8, 0x11#8]) = .next t ∧
      t.response = some ⟨.linkNotOpen, 0#16, []⟩) ∧ Code.linkNotOpen ≠ .ok :=
  ⟨⟨_, rfl⟩, nofun, fun _ => nofun, ⟨_, rfl, rfl⟩, nofun⟩

/-- Both ends of the range. -/
theorem witness_LinkOpenOpensASession :
    State.reset.linkcfg.isOpen = false ∧ 300 ≤ (300#16).toNat ∧ (300#16).toNat ≤ 750 ∧
    300 ≤ (750#16).toNat ∧ (750#16).toNat ≤ 750 := by decide

/-- An open session; and on each side of the range the rate next to its end. -/
theorem witness_LinkOpenErrors :
    (session .idle []).linkcfg.isOpen = true ∧ State.reset.linkcfg.isOpen = false ∧
    (299#16).toNat < 300 ∧ 750 < (751#16).toNat := by decide

theorem witness_LinkCloseClosesTheSession : (session .data []).linkcfg.isOpen = true := rfl

theorem witness_ClosedLinkIsRefused : State.reset.linkcfg.isOpen = false := rfl

theorem witness_LinkCmdResult :
    0x12FF0000#32 &&& 0xFF00FFFF#32 = 0x12000000#32 ∧
    (streaming [0x01#8, 0#8, 0#8, 0x12#8]).stream = wordBytes 0x12000001#32 ++ [] ∧
    (0x12000001#32).extractLsb' 24 8 = 0x12#8 ∧ (0x12000001#32).extractLsb' 0 16 ≠ 0#16 ∧
    State.reset.linkcfg.isOpen = false ∧ (session .data []).linkcfg.isOpen = true ∧
    (session .data [.ok [0xF3#8]]).draws = .ok [0xF3#8] :: [] ∧
    (session .data [.timeout]).draws = .timeout :: [] ∧ (session .data [.fault]).draws = .fault :: [] := by decide

/-- N = 1, the shortest exchange. -/
theorem witness_LinkXchgResult :
    (session .data [.ok [0x55#8]]).linkcfg.isOpen = true ∧ (session .data [.ok [0x55#8]]).linkcfg.phase = .data ∧
    [0xAA#8] ≠ [] ∧ [0x55#8].length = [0xAA#8].length ∧
    (session .data [.ok [0x55#8]]).draws = .ok [0x55#8] :: [] ∧
    (session .data [.timeout]).draws = .timeout :: [] ∧ (session .data [.fault]).draws = .fault :: [] := by decide

theorem witness_LinkXchgErrors :
    (session .idle []).linkcfg.isOpen = true ∧ [0xAA#8] ≠ [] ∧ (session .idle []).linkcfg.phase = .idle := by decide

theorem witness_ExchangeBehavesAsASettledOutcome :
    (session .data []).linkcfg.isOpen = true ∧ (session .data []).linkcfg.phase = .data ∧ [0xAA#8] ≠ [] := by decide

theorem witness_EveryOutcomeCanHappen : [0x55#8, 0x66#8].length = [0xAA#8, 0xBB#8].length := rfl

/-- The last slot of two. -/
theorem witness_ExchangeByteSlots :
    (session .data [.ok [0x55#8, 0x66#8]]).exchangeOutcome [0xAA#8, 0xBB#8] = .ok [0x55#8, 0x66#8] ∧
    (session .data [.ok [0x55#8, 0x66#8]]).draws = .ok [0x55#8, 0x66#8] :: [] ∧
    1 < [0xAA#8, 0xBB#8].length ∧ 1 < [0x55#8, 0x66#8].length ∧
    (session .data [.ok [0x55#8, 0x66#8]]).linkcfg.isOpen = true ∧
    (session .data [.ok [0x55#8, 0x66#8]]).linkcfg.phase = .data ∧ [0xAA#8, 0xBB#8] ≠ [] := by decide

theorem witness_NothingIsSentBeforeTheChecks :
    (∃ t, step ((session .idle [.ok [0x55#8]]).issue [1#8, 0#8, 0#8, 0x13#8, 0xAA#8]) = .next t ∧
      t.response = some ⟨.notReady, 0#16, []⟩) ∧
    Code.notReady ≠ .ok ∧ Code.notReady ≠ .transportTimeout ∧ Code.notReady ≠ .transportFault ∧
    (streaming [0x00#8, 0x00#8, 0x04#8, 0x10#8]).stream = wordBytes 0x10040000#32 ++ [] ∧
    (∀ r ∈ opTable, 0x10040000#32 &&& r.mask ≠ r.pattern) ∧
    State.reset.linkcfg.isOpen = false ∧ (session .idle []).linkcfg.phase ≠ .data :=
  ⟨⟨_, rfl, rfl⟩, by decide⟩

theorem witness_OpenSessionKeepsItsConfiguration :
    ∃ t, step ((session .data []).issue [0#8, 0#8, 0#8, 1#8]) = .next t ∧
      ((session .data []).issue [0#8, 0#8, 0#8, 1#8]).linkcfg.isOpen = true ∧ t.linkcfg.isOpen = true :=
  ⟨_, rfl, rfl, rfl⟩

theorem witness_TransactionsDeliverTheirFrames :
    (session .idle [.ok [0xF3#8], .ok frame86]).linkcfg.isOpen = true ∧
    (session .idle [.ok [0xF3#8], .ok frame86]).draws = .ok [0xF3#8] :: .ok frame86 :: [] ∧
    frame86.length = 86 ∧ (bytesFrom 0 6).length = 6 ∧ [0x5A#8].length = 1 := by decide

/-- One frame, sent twice. -/
theorem witness_AStaleFrameIsReadLikeAFreshOne :
    (session .idle [.ok [0xF3#8], .ok frame86, .ok [0xF3#8], .ok frame86]).linkcfg.isOpen = true ∧
    (histValidateSeq frame86).isSome = true ∧
    (session .idle [.ok [0xF3#8], .ok frame86, .ok [0xF3#8], .ok frame86]).draws =
      .ok [0xF3#8] :: .ok frame86 :: .ok [0xF3#8] :: .ok frame86 :: [] := by decide

/-- W9's three last answers. -/
theorem witness_BusyAnswersDoNotSpoilAReady :
    (session .idle [.ok [0x31#8], .ok [0x31#8], .ok [0xF3#8]]).linkcfg.isOpen = true ∧
    (session .idle [.ok [0x31#8], .ok [0x31#8], .ok [0xF3#8]]).draws =
      List.replicate 2 (.ok [0x31#8]) ++ .ok [0xF3#8] :: [] := by decide

theorem witness_EveryCommandEndsWithAResponse :
    (∃ t, exec .linkClose State.reset = .next t ∧ t.response = some ⟨.linkNotOpen, 0#16, []⟩) ∧
    Code.linkNotOpen ≠ .ok ∧ (∀ tx, Instr.linkClose ≠ .linkXchg tx) ∧ Instr.linkClose ≠ .crcRead ∧
    (∀ e0 e1, Instr.linkClose ≠ .crcCheck e0 e1) ∧ (∀ c, Instr.linkClose ≠ .linkCmd c) :=
  ⟨⟨_, rfl, rfl⟩, nofun, fun _ => nofun, nofun, fun _ _ => nofun, fun _ => nofun⟩

theorem witness_EveryStepAnswersANextState :
    decode (streaming [0#8, 0#8, 0#8, 3#8]).stream = .command .crcRead [] ∧
    decode (streaming [0#8, 0#8, 0#8, 0#8]).stream = .illegal (.unassignedOp 0#8) [] := by decide

/-- An error of each kind. -/
theorem witness_ErrorsArePrecise :
    (∃ t, exec (.linkXchg [0xAA#8]) (session .idle []) = .next t ∧
      t.response = some ⟨.notReady, 0#16, []⟩) ∧ Code.notReady ≠ .ok ∧
    Code.notReady ≠ .transportTimeout ∧ Code.notReady ≠ .transportFault ∧
    (∃ t, exec (.linkXchg [0xAA#8]) (session .data [.timeout]) = .next t ∧
      t.response = some ⟨.transportTimeout, 0#16, []⟩) ∧ Code.transportTimeout ≠ .ok ∧
    (∃ t, exec (.linkXchg [0xAA#8]) (session .data [.fault]) = .next t ∧
      t.response = some ⟨.transportFault, 0#16, []⟩) ∧ Code.transportFault ≠ .ok :=
  ⟨⟨_, rfl, rfl⟩, nofun, nofun, nofun, ⟨_, rfl, rfl⟩, nofun, ⟨_, rfl, rfl⟩, nofun⟩

/-- A state inside a transaction that satisfies the invariant, and its step through an exchange. -/
theorem witness_EveryStepKeepsInv :
    StateInv ((readySession [.ok [0x55#8]]).issue [1#8, 0#8, 0#8, 0x13#8, 0xAA#8]) ∧
    ∃ t, step ((readySession [.ok [0x55#8]]).issue [1#8, 0#8, 0#8, 0x13#8, 0xAA#8]) = .next t := by
  refine ⟨⟨fun _ => rfl, fun _ => by decide, by decide, fun r h => (by cases h), fun t ht => ?_⟩, ⟨_, rfl⟩⟩
  obtain rfl : t = ⟨.command, [0x5A#8], .ok [0xF3#8]⟩ := by simpa [readySession, State.issue] using ht
  refine ⟨by decide, by decide, fun _ => rfl, fun rx h => ?_⟩
  cases h
  rfl

theorem witness_EveryStepKeepsTheFraming :
    FramingInv ((readySession [.ok [0x55#8]]).issue [1#8, 0#8, 0#8, 0x13#8, 0xAA#8]) ∧
    ∃ t, step ((readySession [.ok [0x55#8]]).issue [1#8, 0#8, 0#8, 0x13#8, 0xAA#8]) = .next t := by
  refine ⟨⟨fun before t after h hk => ?_, fun _ => by decide⟩, ⟨_, rfl⟩⟩
  cases before with
  | nil =>
    obtain ⟨rfl, -⟩ : _ = t ∧ _ := by simpa [readySession, State.issue] using h
    cases hk
  | cons b bs => cases bs <;> simp [readySession, State.issue] at h

/-- Reset and a state with another MODE and CLK_KHZ. -/
theorem witness_ClosedConfigurationIsUnobservable :
    SameButClosedConfig (streaming [0#8, 0#8, 0#8, 0x11#8])
      { streaming [0#8, 0#8, 0#8, 0x11#8] with linkcfg := ⟨false, .idle, 2#2, 65535#16⟩ } ∧
    ∃ s', step (streaming [0#8, 0#8, 0#8, 0x11#8]) = .next s' :=
  ⟨⟨rfl, rfl, rfl, nofun, rfl, rfl, rfl, rfl, rfl, rfl⟩, ⟨_, rfl⟩⟩

/-- The last two bytes of a buffer. -/
theorem witness_BuffersReadLittleEndian : 84 + 2 ≤ frame86.length := by decide

theorem witness_HistogramFieldsTileTheFrame : 85 < 86 ∧ HistField.laserStatus ≠ .checksum := by decide

theorem witness_HistValidateAnswersValidity :
    frame86.length = 86 ∧ (histValidateSeq frame86).isSome = true ∧ frame84.length ≠ 86 := by decide

theorem witness_AssemblerEmitsCommandsOnly :
    assemble "link.open 1, 500\nlink.cmd 0x5A\nlink.xchg 0xFF x 2 ; data".toList =
      .ok [.linkOpen 1#2 500#16, .linkCmd 0x5A#8, .linkXchg [0xFF#8, 0xFF#8]] := by decide

end Sys2Proof.Tests
end

