-- ==== Sys2Proof/Proofs/CrcCommands.lean ====
section
/-! PROOF. The CRC unit's commands as functions of CRC and their operands (20_memory.md R38). -/

namespace Sys2Proof.Machine

/-! ### The next state of each CRC command (40_checksum.md R62 to R65) -/

@[simp] theorem exec_crcInit (s : State) :
    exec .crcInit s = .next { s with crc := Config.crcInitValue, response := some ⟨.ok, 0#16, []⟩ } := rfl

@[simp] theorem exec_crcUpdate (b : Byte) (s : State) :
    exec (.crcUpdate b) s = .next { s with crc := crcByte s.crc b, response := some ⟨.ok, 0#16, []⟩ } := rfl

@[simp] theorem exec_crcRead (s : State) :
    exec .crcRead s = .next { s with response := some ⟨.ok, s.crc, []⟩ } := rfl

@[simp] theorem exec_crcCheck (e0 e1 : Byte) (s : State) :
    exec (.crcCheck e0 e1) s =
      .next { s with response := some ⟨.ok, matchValue s.crc (expectedValue e0 e1), []⟩ } := rfl

/-- The one idea of R38: a CRC command is a pair of functions of the old CRC, one for the new CRC and one for
the response, and the rest of the state is carried over. For CRC.READ and CRC.CHECK the first function is the
identity. -/
theorem exec_crcCommand_eq {i : Instr} (hi : isCrcCommand i = true) :
    ∃ (newCrc : HalfWord → HalfWord) (reply : HalfWord → Response),
      (∀ s : State, exec i s = .next { s with crc := newCrc s.crc, response := some (reply s.crc) }) ∧
      (i = .crcRead ∨ (∃ e0 e1, i = .crcCheck e0 e1) → ∀ c, newCrc c = c) := by
  cases i with
  | crcInit => exact ⟨fun _ => Config.crcInitValue, fun _ => ⟨.ok, 0#16, []⟩, exec_crcInit, by simp⟩
  | crcUpdate b => exact ⟨(crcByte · b), fun _ => ⟨.ok, 0#16, []⟩, exec_crcUpdate b, by simp⟩
  | crcRead => exact ⟨id, (⟨.ok, ·, []⟩), exec_crcRead, fun _ _ => rfl⟩
  | crcCheck e0 e1 =>
    exact ⟨id, (⟨.ok, matchValue · (expectedValue e0 e1), []⟩), exec_crcCheck e0 e1, fun _ _ => rfl⟩
  | linkOpen | linkClose | linkCmd | linkXchg => cases hi

/-- Settles O28: both states feed the same CRC to the command's two functions. -/
theorem crcCommandsDependOnCrcOnly : Obligations.CrcCommandsDependOnCrcOnly := by
  intro i s t hi hcrc
  obtain ⟨newCrc, reply, hexec, hkeeps⟩ := exec_crcCommand_eq hi
  refine ⟨newCrc s.crc, reply s.crc, hexec s, ?_, fun hread => hkeeps hread s.crc⟩
  rw [hcrc]
  exact hexec t

end Sys2Proof.Machine
end

