-- ==== Sys2Proof/Proofs/Checksum.lean ====
section
/-! PROOF. The checksum as a function (40_checksum.md R61, R66), and what the `crc.update` sequences of
30_encoding.md R56 compute with it. -/

namespace Sys2Proof.Machine

/-! ### The register as an iterate and as a fold -/

theorem crcShifts_eq_iterate (n : Nat) (c : HalfWord) : crcShifts n c = crcShift^[n] c := by
  induction n generalizing c with
  | zero => rfl
  | succ n ih => rw [crcShifts, ih, Function.iterate_succ_apply]

theorem crcRun_eq_foldl (c : HalfWord) (bytes : List Byte) : crcRun c bytes = bytes.foldl crcByte c := by
  induction bytes generalizing c with
  | nil => rfl
  | cons b bs ih => rw [crcRun_cons, ih, List.foldl_cons]

/-! ### The register on the spec's examples -/

/-- A zero byte is no no-op (R63). -/
theorem crcByte_init_zero : crcByte 0xFFFF#16 0x00#8 = 0x40BF#16 := rfl

/-- R61's worked example. -/
theorem crcByte_init_one : crcByte 0xFFFF#16 0x01#8 = 0x807E#16 := rfl

/-- R64's example, the ASCII digits 1 to 9. -/
theorem checksum_digits :
    checksum [0x31#8, 0x32#8, 0x33#8, 0x34#8, 0x35#8, 0x36#8, 0x37#8, 0x38#8, 0x39#8] = 0x4B37#16 := by
  simp [checksum, crcByte, crcShifts, crcShift, Config.crcInitValue, Config.crcPolyReflected]

/-! ### Sequences of `crc.update` -/

/-- A run of updates leaves the fold of the bytes in CRC. With no update at all the response stays the old one. -/
theorem execSeq_crcUpdates (bytes : List Byte) (s : State) :
    execSeq (crcUpdates bytes) s =
      .next { s with
        crc := crcRun s.crc bytes
        response := if bytes = [] then s.response else some ⟨.ok, 0#16, []⟩ } := by
  induction bytes generalizing s with
  | nil => rfl
  | cons b bs ih =>
    have hstep : execSeq (crcUpdates (b :: bs)) s =
        execSeq (crcUpdates bs) { s with crc := crcByte s.crc b, response := some ⟨.ok, 0#16, []⟩ } := rfl
    rw [hstep, ih]
    simp

/-- Updates and then one more command run that command with the fold of the bytes in CRC (R69). -/
theorem execSeq_crcUpdates_concat (bytes : List Byte) (i : Instr) (s : State) :
    execSeq (crcUpdates bytes ++ [i]) s =
      execSeq [i] { s with
        crc := crcRun s.crc bytes
        response := if bytes = [] then s.response else some ⟨.ok, 0#16, []⟩ } := by
  rw [execSeq_append, execSeq_crcUpdates]

/-- The `checksum` expansion answers the checksum, whatever CRC held before (R56, R69). -/
theorem execSeq_checksumSeq (bytes : List Byte) (s : State) :
    execSeq (checksumSeq bytes) s =
      .next { s with crc := checksum bytes, response := some ⟨.ok, checksum bytes, []⟩ } := by
  have hinit : execSeq (checksumSeq bytes) s =
      execSeq (crcUpdates bytes ++ [.crcRead])
        { s with crc := Config.crcInitValue, response := some ⟨.ok, 0#16, []⟩ } := rfl
  rw [hinit, execSeq_crcUpdates_concat]
  rfl

/-! ### The obligations -/

/-- Settles O13: `crcShifts` is the iterate of R61's loop body. -/
theorem crcByteAlgorithm : Obligations.CrcByteAlgorithm :=
  ⟨fun c b => crcShifts_eq_iterate 8 (c ^^^ b.setWidth 16), crcByte_init_one⟩

/-- Settles O16: `crcRun` from the initial register. -/
theorem checksumIsTheFold : Obligations.ChecksumIsTheFold :=
  crcRun_eq_foldl Config.crcInitValue

end Sys2Proof.Machine
end

