-- ==== Sys2Proof/Proofs/CrcEncoding.lean ====
section
/-! PROOF. How the words of the CRC unit's commands decode (30_encoding.md R47, R48), and the step that
answers an illegal word. -/

namespace Sys2Proof

/-! ### Words and their fields -/

/-- A field that a mask keeps whole is read off the masked word: how R47's match/mask rows fix the fields of a
word. -/
theorem extractLsb'_of_masked {start len : Nat} {w mask pattern : Word} (hsel : w &&& mask = pattern)
    (hmask : mask.extractLsb' start len = BitVec.allOnes len) :
    w.extractLsb' start len = pattern.extractLsb' start len := by
  rw [← hsel, BitVec.extractLsb'_and, hmask, BitVec.and_allOnes]

/-- A word is its OP, ARG8 and ARG16 (R45). -/
theorem makeWord_of_fields (w : Word) : makeWord (opField w) (arg8Field w) (arg16Field w) = w := by
  have hlow : arg8Field w ++ arg16Field w = w.extractLsb' 0 24 :=
    BitVec.extractLsb'_append_extractLsb'_eq_extractLsb' rfl
  rw [makeWord, hlow]
  exact (BitVec.extractLsb'_append_extractLsb'_eq_extractLsb' rfl).trans BitVec.extractLsb'_eq_self

/-- A word other than the one of its OP with no operands has an operand bit set (R48). -/
theorem operand_ne_zero_of_ne_makeWord {w : Word} {op : Byte} (hop : opField w = op)
    (hne : w ≠ makeWord op 0#8 0#16) : (arg8Field w == 0#8 && arg16Field w == 0#16) = false := by
  by_contra hzero
  simp only [Bool.not_eq_false, Bool.and_eq_true, beq_iff_eq] at hzero
  obtain ⟨harg8, harg16⟩ := hzero
  exact hne (by rw [← makeWord_of_fields w, hop, harg8, harg16])

/-! ### The branch of the decoder that an OP selects (R47) -/

theorem decodeWord_crcUpdate {w : Word} (hop : opField w = 0x02#8) :
    decodeWord w = whenZero (arg16Field w == 0#16) w (.complete (.crcUpdate (arg8Field w))) := by
  simp [decodeWord, hop]

theorem decodeWord_crcRead {w : Word} (hop : opField w = 0x03#8) :
    decodeWord w = whenZero (arg8Field w == 0#8 && arg16Field w == 0#16) w (.complete .crcRead) := by
  simp [decodeWord, hop]

theorem decodeWord_crcCheck {w : Word} (hop : opField w = 0x04#8) :
    decodeWord w = whenZero (arg8Field w == 0#8) w (.complete (.crcCheck (e0Field w) (e1Field w))) := by
  simp [decodeWord, hop]

/-- R63's match/mask pair. -/
theorem decodeWord_crcUpdate_of_match {w : Word} (hsel : w &&& 0xFF00FFFF#32 = 0x02000000#32) :
    decodeWord w = .complete (.crcUpdate (arg8Field w)) := by
  have hop : opField w = 0x02#8 := extractLsb'_of_masked hsel (by decide)
  have harg16 : arg16Field w = 0#16 := extractLsb'_of_masked hsel (by decide)
  simp [decodeWord_crcUpdate hop, harg16, whenZero]

/-- R65's match/mask pair. -/
theorem decodeWord_crcCheck_of_match {w : Word} (hsel : w &&& 0xFFFF0000#32 = 0x04000000#32) :
    decodeWord w = .complete (.crcCheck (e0Field w) (e1Field w)) := by
  have hop : opField w = 0x04#8 := extractLsb'_of_masked hsel (by decide)
  have harg8 : arg8Field w = 0#8 := extractLsb'_of_masked hsel (by decide)
  simp [decodeWord_crcCheck hop, harg8, whenZero]

end Sys2Proof

namespace Sys2Proof.Machine

/-! ### Answering an illegal word (R48) -/

/-- A step on a stream that begins with an illegal word takes its four bytes and changes only the response. -/
theorem step_of_illegal {s : State} {w : Word} {rest : List Byte} {why : Illegal}
    (hs : s.stream = wordBytes w ++ rest) (hw : decodeWord w = .illegal why) :
    step s = .next { s with stream := rest, response := some ⟨.illegalCommand, 0#16, []⟩ } := by
  have hdec : decode s.stream = .illegal why rest := by rw [hs, decode_wordBytes, hw]
  rw [step, hdec]
  rfl

/-- The same for a word whose OP is assigned but whose reserved bits are not all 0. -/
theorem step_of_reserved {s : State} {w : Word} {rest : List Byte} {zero : Bool} {m : WordMeaning}
    (hs : s.stream = wordBytes w ++ rest) (hw : decodeWord w = whenZero zero w m) (hzero : zero = false) :
    step s = .next { s with stream := rest, response := some ⟨.illegalCommand, 0#16, []⟩ } := by
  subst hzero
  exact step_of_illegal hs hw

end Sys2Proof.Machine
end

