-- ==== Sys2Proof/Proofs/CrcResults.lean ====
section
/-! PROOF. The rules of CRC.UPDATE, CRC.READ and CRC.CHECK (40_checksum.md R63 to R65): encoding, effect, one
error, examples. -/

namespace Sys2Proof.Machine

/-! ### The comparison of CRC.CHECK -/

@[simp] theorem matchValue_eq_one_iff (crc expected : HalfWord) :
    matchValue crc expected = 1#16 ↔ crc = expected := by
  by_cases h : crc = expected <;> simp [matchValue, h]

theorem matchValue_of_ne {crc expected : HalfWord} (h : crc ≠ expected) : matchValue crc expected = 0#16 :=
  if_neg h

/-- `expected = e0 | (e1 << 8)` (R65). -/
theorem expectedValue_eq_or (e0 e1 : Byte) :
    expectedValue e0 e1 = e0.zeroExtend 16 ||| (e1.zeroExtend 16 <<< 8) :=
  calc expectedValue e0 e1
    _ = (e1 ++ e0).setWidth 16 := (BitVec.setWidth_eq _).symm
    _ = (e1.zeroExtend 16 <<< 8) ||| e0.zeroExtend 16 := BitVec.setWidth_append_eq_shiftLeft_setWidth_or
    _ = e0.zeroExtend 16 ||| (e1.zeroExtend 16 <<< 8) := BitVec.or_comm _ _

/-- Swapping the expected bytes changes the expected value unless they are equal (R65). -/
theorem expectedValue_swap_ne {e0 e1 : Byte} (hne : e0 ≠ e1) : expectedValue e0 e1 ≠ expectedValue e1 e0 :=
  fun heq => hne <| by
    calc e0
      _ = (expectedValue e0 e1).extractLsb' 0 8 := (expectedValue_low e0 e1).symm
      _ = (expectedValue e1 e0).extractLsb' 0 8 := by rw [heq]
      _ = e1 := expectedValue_low e1 e0

theorem exec_crcCheck_of_eq {e0 e1 : Byte} {s : State} (h : s.crc = expectedValue e0 e1) :
    exec (.crcCheck e0 e1) s = .next { s with response := some ⟨.ok, 1#16, []⟩ } := by
  rw [exec_crcCheck, (matchValue_eq_one_iff _ _).2 h]

theorem exec_crcCheck_of_ne {e0 e1 : Byte} {s : State} (h : s.crc ≠ expectedValue e0 e1) :
    exec (.crcCheck e0 e1) s = .next { s with response := some ⟨.ok, 0#16, []⟩ } := by
  rw [exec_crcCheck, matchValue_of_ne h]

/-- CRC.CHECK answers 1 only if CRC holds the expected value. -/
theorem crc_eq_of_exec_crcCheck {e0 e1 : Byte} {s : State}
    (h : exec (.crcCheck e0 e1) s = .next { s with response := some ⟨.ok, 1#16, []⟩ }) :
    s.crc = expectedValue e0 e1 := by
  simpa using h

/-- Where a pair of unequal bytes matches, the swapped pair does not (R65). -/
theorem exec_crcCheck_swapped {e0 e1 : Byte} {s : State} (hcrc : s.crc = expectedValue e0 e1) (hne : e0 ≠ e1) :
    exec (.crcCheck e1 e0) s = .next { s with response := some ⟨.ok, 0#16, []⟩ } :=
  exec_crcCheck_of_ne (hcrc ▸ expectedValue_swap_ne hne)

/-! ### The obligations -/

/-- Settles O25. -/
theorem crcUpdateResult : Obligations.CrcUpdateResult := by
  refine ⟨fun w => decodeWord_crcUpdate_of_match, exec_crcUpdate, ?illegal, crcByte_init_zero, crcByte_init_one⟩
  case illegal =>
    intro s w rest hs hop harg16
    exact step_of_reserved hs (decodeWord_crcUpdate hop) (beq_false_of_ne harg16)

/-- Settles O26: feeding the nine digits is the `checksum` expansion (R56). -/
theorem crcReadResult : Obligations.CrcReadResult := by
  refine ⟨by decide, exec_crcRead, ?illegal, ?afterInit, ?twice, ?digits⟩
  case illegal =>
    intro s w rest hs hop hne
    exact step_of_reserved hs (decodeWord_crcRead hop) (operand_ne_zero_of_ne_makeWord hop hne)
  case afterInit => exact execSeq_checksumSeq []
  case twice => exact fun s => rfl
  case digits =>
    intro s
    rw [← checksum_digits]
    exact execSeq_checksumSeq _ s

/-- Settles O27. -/
theorem crcCheckResult : Obligations.CrcCheckResult := by
  refine ⟨fun w => decodeWord_crcCheck_of_match, ?effect, ?illegal, ?swapped, ?afterInit, ?vector⟩
  case effect =>
    intro e0 e1 s
    rw [← expectedValue_eq_or]
    exact exec_crcCheck e0 e1 s
  case illegal =>
    intro s w rest hs hop harg8
    exact step_of_reserved hs (decodeWord_crcCheck hop) (beq_false_of_ne harg8)
  case swapped =>
    intro e0 e1 s hmatch hne
    exact exec_crcCheck_swapped (crc_eq_of_exec_crcCheck hmatch) hne
  case afterInit => exact fun s => rfl
  case vector =>
    intro s hcrc
    have hexpected : s.crc = expectedValue 0xC5#8 0xCD#8 := hcrc
    exact ⟨exec_crcCheck_of_eq hexpected, exec_crcCheck_swapped hexpected (by decide)⟩

end Sys2Proof.Machine
end

