-- ==== Sys2Proof/Proofs/IllegalWords.lean ====
section
/-! PROOF. The words that select no row of R47's table are the ones the decoder refuses (30_encoding.md R48, R49). -/

namespace Sys2Proof

/-- A masked word is put together from its three masked fields (R45). -/
theorem masked_eq_makeWord {w mask : Word} {op arg8 : Byte} {arg16 : HalfWord}
    (hop : opField w &&& opField mask = op) (harg8 : arg8Field w &&& arg8Field mask = arg8)
    (harg16 : arg16Field w &&& arg16Field mask = arg16) : w &&& mask = makeWord op arg8 arg16 := by
  have hop' : opField (w &&& mask) = op := BitVec.extractLsb'_and.trans hop
  have harg8' : arg8Field (w &&& mask) = arg8 := BitVec.extractLsb'_and.trans harg8
  have harg16' : arg16Field (w &&& mask) = arg16 := BitVec.extractLsb'_and.trans harg16
  rw [← makeWord_of_fields (w &&& mask), hop', harg8', harg16']

/-- ARG8 under the mask of `link.open` is 0 when its six reserved bits are (R48). -/
theorem arg8Field_and_openMask {w : Word} (h : openReservedField w = 0#6) : arg8Field w &&& 0xFC#8 = 0#8 := by
  have hsplit : openReservedField w ++ modeField w = arg8Field w :=
    BitVec.extractLsb'_append_extractLsb'_eq_extractLsb' rfl
  calc arg8Field w &&& 0xFC#8
    _ = (openReservedField w ++ modeField w) &&& (BitVec.allOnes 6 ++ 0#2) := by rw [hsplit]; rfl
    _ = 0#6 ++ 0#2 := by rw [BitVec.and_append, BitVec.and_allOnes, BitVec.and_zero, h]
    _ = 0#8 := rfl

/-! ### A word with its reserved bits 0 selects the row of its OP, one lemma per mask of R47 -/

theorem selects_of_noOperands {w : Word} {op : Byte} (hop : opField w = op)
    (hzero : (arg8Field w == 0#8 && arg16Field w == 0#16) = true) :
    w &&& 0xFFFFFFFF#32 = makeWord op 0#8 0#16 := by
  simp only [Bool.and_eq_true, beq_iff_eq] at hzero
  obtain ⟨harg8, harg16⟩ := hzero
  rw [← hop, ← harg8, ← harg16, makeWord_of_fields]
  exact BitVec.and_allOnes

theorem selects_of_arg8Operand {w : Word} {op : Byte} (hop : opField w = op)
    (hzero : (arg16Field w == 0#16) = true) : w &&& 0xFF00FFFF#32 = makeWord op 0#8 0#16 :=
  masked_eq_makeWord (hop ▸ BitVec.and_allOnes) BitVec.and_zero (beq_iff_eq.1 hzero ▸ BitVec.and_allOnes)

theorem selects_of_arg16Operand {w : Word} {op : Byte} (hop : opField w = op)
    (hzero : (arg8Field w == 0#8) = true) : w &&& 0xFFFF0000#32 = makeWord op 0#8 0#16 :=
  masked_eq_makeWord (hop ▸ BitVec.and_allOnes) (beq_iff_eq.1 hzero ▸ BitVec.and_allOnes) BitVec.and_zero

theorem selects_of_openOperands {w : Word} {op : Byte} (hop : opField w = op)
    (hzero : (openReservedField w == 0#6) = true) : w &&& 0xFFFC0000#32 = makeWord op 0#8 0#16 :=
  masked_eq_makeWord (hop ▸ BitVec.and_allOnes) (arg8Field_and_openMask (beq_iff_eq.1 hzero)) BitVec.and_zero

/-! ### The decoder on a word that selects no row -/

theorem whenZero_illegal {zero : Bool} {w : Word} {m : WordMeaning} (h : zero ≠ true) :
    whenZero zero w m = .illegal (.reservedBits w) :=
  if_neg h

/-- A word that selects no row is illegal: each branch of the decoder that gives a meaning selects its row. -/
theorem decodeWord_of_no_row {w : Word} (h : ∀ r ∈ opTable, w &&& r.mask ≠ r.pattern) :
    ∃ why, decodeWord w = .illegal why := by
  simp only [opTable, List.forall_mem_cons, List.not_mem_nil, false_implies, implies_true, and_true] at h
  obtain ⟨hinit, hupdate, hread, hcheck, hopen, hclose, hcmd, hxchg⟩ := h
  unfold decodeWord
  split_ifs with h1 h2 h3 h4 h5 h6 h7 h8
  · exact ⟨_, whenZero_illegal fun hz => hinit (selects_of_noOperands h1 hz)⟩
  · exact ⟨_, whenZero_illegal fun hz => hupdate (selects_of_arg8Operand h2 hz)⟩
  · exact ⟨_, whenZero_illegal fun hz => hread (selects_of_noOperands h3 hz)⟩
  · exact ⟨_, whenZero_illegal fun hz => hcheck (selects_of_arg16Operand h4 hz)⟩
  · exact ⟨_, whenZero_illegal fun hz => hopen (selects_of_openOperands h5 hz)⟩
  · exact ⟨_, whenZero_illegal fun hz => hclose (selects_of_noOperands h6 hz)⟩
  · exact ⟨_, whenZero_illegal fun hz => hcmd (selects_of_arg8Operand h7 hz)⟩
  · exact ⟨_, whenZero_illegal fun hz => hxchg (selects_of_arg16Operand h8 hz)⟩
  · exact ⟨_, rfl⟩

end Sys2Proof
end

