-- ==== Sys2Proof/Proofs/Transport.lean ====
section
/-! PROOF. The class of a status byte, and which commands can put bytes on the link (41_transport.md R78, R80). -/

namespace Sys2Proof.Machine

/-- Settles O30: READY_CODE is 0xF3 and BUSY_CODE 0x31, and `classify` tests them before the set. -/
theorem classifyStatusByte : Obligations.ClassifyStatusByte := by
  intro faults s
  simp only [classify, Config.readyCode, Config.busyCode, List.contains_iff_mem]

/-! ### Two states between which nothing went over the link -/

/-- No exchange was made: nothing is added to the record and none of the oracle's choices is spent (R83). -/
structure NoExchange (s t : State) : Prop where
  transfers : t.transfers = s.transfers
  draws : t.draws = s.draws
  drawCount : t.drawCount = s.drawCount

/-- Raising an error sends nothing (60_exceptions.md R97). -/
theorem noExchange_raise (e : Code) (s : State) : NoExchange s (raise e s) :=
  ⟨raise_transfers e s, raise_draws e s, raise_drawCount e s⟩

/-- Taking a command's bytes off the stream sends nothing. -/
theorem NoExchange.of_setStream {s t : State} {rest : List Byte} (h : NoExchange (s.setStream rest) t) :
    NoExchange s t :=
  ⟨h.transfers, h.draws, h.drawCount⟩

/-! ### The commands that reach the exchange -/

/-- The checks of R78 and 60_exceptions.md R98 that come before an exchange are passed: a `link.cmd` needs an open
session, a `link.xchg` also a byte to send and PHASE DATA. No other command has an exchange. -/
def ReachesLink : Instr → State → Prop
  | .linkCmd _, s => s.linkcfg.isOpen = true
  | .linkXchg tx, s => s.linkcfg.isOpen = true ∧ tx ≠ [] ∧ s.linkcfg.phase = .data
  | .crcInit, _ | .crcUpdate _, _ | .crcRead, _ | .crcCheck _ _, _ | .linkOpen _ _, _ | .linkClose, _ => False

/-- Nothing reaches the link of a closed session. -/
theorem not_reachesLink_of_closed {s : State} (h : s.linkcfg.isOpen = false) (i : Instr) : ¬ ReachesLink i s := by
  cases i with
  | linkCmd c => simp [ReachesLink, h]
  | linkXchg tx => simp [ReachesLink, h]
  | crcInit | crcUpdate | crcRead | crcCheck | linkOpen | linkClose => exact id

/-- The codes a command can end with once it has made an exchange (R83, R86, R87). -/
def Code.EndsExchange (c : Code) : Prop := c = .ok ∨ c = .transportTimeout ∨ c = .transportFault

/-- What a command does to the link: it leaves it alone, or its checks are passed and it ends with one of the three
codes of an exchange. -/
def LinkUse (i : Instr) (s t : State) : Prop :=
  NoExchange s t ∨ (ReachesLink i s ∧ ∃ r, t.response = some r ∧ r.code.EndsExchange)

theorem linkCmd_linkUse (c : Byte) (s : State) : ∃ t, exec (.linkCmd c) s = .next t ∧ LinkUse (.linkCmd c) s t := by
  rcases execLinkCmd_cases c s with ⟨-, h⟩ | ⟨ho, -, h⟩ | ⟨ho, -, h⟩ | ⟨status, ho, -, h⟩
  · exact ⟨_, h, .inl (noExchange_raise _ s)⟩
  · exact ⟨_, h, .inr ⟨ho, _, rfl, .inr (.inl rfl)⟩⟩
  · exact ⟨_, h, .inr ⟨ho, _, rfl, .inr (.inr rfl)⟩⟩
  · exact ⟨_, h, .inr ⟨ho, _, rfl, .inl rfl⟩⟩

theorem linkXchg_linkUse (tx : List Byte) (s : State) :
    ∃ t, exec (.linkXchg tx) s = .next t ∧ LinkUse (.linkXchg tx) s t := by
  rcases execLinkXchg_cases tx s with ⟨-, h⟩ | ⟨-, -, h⟩ | ⟨-, -, -, h⟩ | ⟨ho, hne, hp, houtcome⟩
  · exact ⟨_, h, .inl (noExchange_raise _ s)⟩
  · exact ⟨_, h, .inl (noExchange_raise _ s)⟩
  · exact ⟨_, h, .inl (noExchange_raise _ s)⟩
  · have hreach : ReachesLink (.linkXchg tx) s := ⟨ho, hne, hp⟩
    rcases houtcome with ⟨-, h⟩ | ⟨-, h⟩ | ⟨rx, -, -, h⟩
    · exact ⟨_, h, .inr ⟨hreach, _, rfl, .inr (.inl rfl)⟩⟩
    · exact ⟨_, h, .inr ⟨hreach, _, rfl, .inr (.inr rfl)⟩⟩
    · exact ⟨_, h, .inr ⟨hreach, _, rfl, .inl rfl⟩⟩

/-- Every command answers a next state, and only a `link.cmd` or `link.xchg` that passes its checks makes an
exchange. -/
theorem exec_linkUse (i : Instr) (s : State) : ∃ t, exec i s = .next t ∧ LinkUse i s t := by
  cases i with
  | crcInit => exact ⟨_, exec_crcInit s, .inl ⟨rfl, rfl, rfl⟩⟩
  | crcUpdate b => exact ⟨_, exec_crcUpdate b s, .inl ⟨rfl, rfl, rfl⟩⟩
  | crcRead => exact ⟨_, exec_crcRead s, .inl ⟨rfl, rfl, rfl⟩⟩
  | crcCheck e0 e1 => exact ⟨_, exec_crcCheck e0 e1 s, .inl ⟨rfl, rfl, rfl⟩⟩
  | linkOpen mode khz =>
    rcases execLinkOpen_cases mode khz s with ⟨-, h⟩ | ⟨-, -, h⟩ | ⟨-, -, h⟩
    · exact ⟨_, h, .inl (noExchange_raise _ s)⟩
    · exact ⟨_, h, .inl ⟨rfl, rfl, rfl⟩⟩
    · exact ⟨_, h, .inl (noExchange_raise _ s)⟩
  | linkClose =>
    rcases execLinkClose_cases s with ⟨-, h⟩ | ⟨-, h⟩
    · exact ⟨_, h, .inl ⟨rfl, rfl, rfl⟩⟩
    · exact ⟨_, h, .inl (noExchange_raise _ s)⟩
  | linkCmd c => exact linkCmd_linkUse c s
  | linkXchg tx => exact linkXchg_linkUse tx s

/-- A command that fails a check sends nothing (R78). -/
theorem exec_transfers_of_not_reachesLink {i : Instr} {s : State} (h : ¬ ReachesLink i s) :
    ∃ t, exec i s = .next t ∧ t.transfers = s.transfers := by
  obtain ⟨t, hexec, hnone | ⟨hreach, -⟩⟩ := exec_linkUse i s
  · exact ⟨t, hexec, hnone.transfers⟩
  · exact absurd hreach h

/-! ### Steps -/

/-- A step sends nothing, or its response has one of the three codes of an exchange. An illegal word and an
incomplete command send nothing (R78; log entry 2). -/
theorem step_noExchange_or_endsExchange {s t : State} (h : step s = .next t) :
    NoExchange s t ∨ ∃ r, t.response = some r ∧ r.code.EndsExchange := by
  unfold step at h
  split at h
  next i rest _ =>
    obtain ⟨t', hexec, huse⟩ := exec_linkUse i (s.setStream rest)
    obtain rfl : t' = t := by rw [hexec] at h; injection h
    exact huse.imp NoExchange.of_setStream And.right
  next rest _ =>
    cases h
    exact .inl (noExchange_raise _ (s.setStream rest)).of_setStream
  next =>
    cases h
    exact .inl ⟨rfl, rfl, rfl⟩

/-- Settles O42: every condition of R78 fails a check, and an error that is not a transport error is no answer to
an exchange. -/
theorem nothingIsSentBeforeTheChecks : Obligations.NothingIsSentBeforeTheChecks := by
  refine ⟨?error, ?illegal, ?closed, ?empty, ?phase⟩
  case error =>
    intro s t r hstep hr hok htimeout hfault
    rcases step_noExchange_or_endsExchange hstep with ⟨htransfers, hdraws, hcount⟩ | ⟨r', hr', hends⟩
    · exact ⟨htransfers, hdraws, hcount⟩
    · obtain rfl : r' = r := Option.some.inj (hr'.symm.trans hr)
      rcases hends with h | h | h
      · exact absurd h hok
      · exact absurd h htimeout
      · exact absurd h hfault
  case illegal =>
    intro s w rest hs hrow
    obtain ⟨why, hw⟩ := decodeWord_of_no_row hrow
    exact ⟨_, step_of_illegal hs hw, rfl⟩
  case closed => exact fun s hclosed i => exec_transfers_of_not_reachesLink (not_reachesLink_of_closed hclosed i)
  case empty => exact fun s => exec_transfers_of_not_reachesLink fun ⟨_, hne, _⟩ => hne rfl
  case phase => exact fun s tx hphase => exec_transfers_of_not_reachesLink fun ⟨_, _, hdata⟩ => hphase hdata

end Sys2Proof.Machine
end

