-- ==== Sys2Proof/Proofs/Encoding.lean ====
section
/-! PROOF. The command words and the command stream (30_encoding.md R45 to R52): decoding and encoding are inverse
to each other, the decoder is R47's match/mask table, and a step runs what the stream's front decodes to. -/

namespace Sys2Proof

/-! ### The branch of the decoder that an OP selects (R47) -/

theorem decodeWord_crcInit {w : Word} (hop : opField w = 0x01#8) :
    decodeWord w = whenZero (arg8Field w == 0#8 && arg16Field w == 0#16) w (.complete .crcInit) := by
  simp [decodeWord, hop]

theorem decodeWord_linkOpen {w : Word} (hop : opField w = 0x10#8) :
    decodeWord w =
      whenZero (openReservedField w == 0#6) w (.complete (.linkOpen (modeField w) (arg16Field w))) := by
  simp [decodeWord, hop]

theorem decodeWord_linkCmd {w : Word} (hop : opField w = 0x12#8) :
    decodeWord w = whenZero (arg16Field w == 0#16) w (.complete (.linkCmd (arg8Field w))) := by
  simp [decodeWord, hop]

theorem decodeWord_linkXchg {w : Word} (hop : opField w = 0x13#8) :
    decodeWord w = whenZero (arg8Field w == 0#8) w (.payload (arg16Field w)) := by
  simp [decodeWord, hop]

/-! ### The match/mask pairs of R47 -/

theorem decodeWord_linkOpen_of_match {w : Word} (hsel : w &&& 0xFFFC0000#32 = 0x10000000#32) :
    decodeWord w = .complete (.linkOpen (modeField w) (arg16Field w)) := by
  have hop : opField w = 0x10#8 := extractLsb'_of_masked hsel (by decide)
  have hreserved : openReservedField w = 0#6 := extractLsb'_of_masked hsel (by decide)
  simp [decodeWord_linkOpen hop, hreserved, whenZero]

theorem decodeWord_linkCmd_of_match {w : Word} (hsel : w &&& 0xFF00FFFF#32 = 0x12000000#32) :
    decodeWord w = .complete (.linkCmd (arg8Field w)) := by
  have hop : opField w = 0x12#8 := extractLsb'_of_masked hsel (by decide)
  have harg16 : arg16Field w = 0#16 := extractLsb'_of_masked hsel (by decide)
  simp [decodeWord_linkCmd hop, harg16, whenZero]

theorem decodeWord_linkXchg_of_match {w : Word} (hsel : w &&& 0xFFFF0000#32 = 0x13000000#32) :
    decodeWord w = .payload (arg16Field w) := by
  have hop : opField w = 0x13#8 := extractLsb'_of_masked hsel (by decide)
  have harg8 : arg8Field w = 0#8 := extractLsb'_of_masked hsel (by decide)
  simp [decodeWord_linkXchg hop, harg8, whenZero]

/-- A row whose mask keeps the whole word is selected by one word only. -/
theorem eq_of_full_mask {w pattern : Word} (hsel : w &&& 0xFFFFFFFF#32 = pattern) : w = pattern :=
  BitVec.and_allOnes.symm.trans hsel

/-- Every mask keeps the OP, so a selected row is the row of the word's OP. -/
theorem opField_of_selects {w : Word} {r : OpRow} (hr : r ∈ opTable) (hsel : w &&& r.mask = r.pattern) :
    opField w = opField r.pattern := by
  have hmask : ∀ r ∈ opTable, r.mask.extractLsb' 24 8 = BitVec.allOnes 8 := by decide
  exact extractLsb'_of_masked hsel (hmask r hr)

/-- R47's rows are disjoint: their OPs differ. -/
theorem opTable_disjoint {w : Word} {r₁ r₂ : OpRow} (h₁ : r₁ ∈ opTable) (h₂ : r₂ ∈ opTable)
    (hsel₁ : w &&& r₁.mask = r₁.pattern) (hsel₂ : w &&& r₂.mask = r₂.pattern) : r₁ = r₂ := by
  have hops : ∀ r₁ ∈ opTable, ∀ r₂ ∈ opTable, opField r₁.pattern = opField r₂.pattern → r₁ = r₂ := by decide
  exact hops r₁ h₁ r₂ h₂ ((opField_of_selects h₁ hsel₁).symm.trans (opField_of_selects h₂ hsel₂))

/-- A word that selects a row has that row's meaning, so it is not illegal. -/
theorem decodeWord_ne_illegal_of_selects {w : Word} {r : OpRow} (hr : r ∈ opTable)
    (hsel : w &&& r.mask = r.pattern) (why : Illegal) : decodeWord w ≠ .illegal why := by
  simp only [opTable, List.mem_cons, List.not_mem_nil, or_false] at hr
  rcases hr with rfl | rfl | rfl | rfl | rfl | rfl | rfl | rfl
  · rw [eq_of_full_mask hsel]; exact nofun
  · rw [decodeWord_crcUpdate_of_match hsel]; exact nofun
  · rw [eq_of_full_mask hsel]; exact nofun
  · rw [decodeWord_crcCheck_of_match hsel]; exact nofun
  · rw [decodeWord_linkOpen_of_match hsel]; exact nofun
  · rw [eq_of_full_mask hsel]; exact nofun
  · rw [decodeWord_linkCmd_of_match hsel]; exact nofun
  · rw [decodeWord_linkXchg_of_match hsel]; exact nofun

/-- A word is illegal exactly when it selects no row (R48, R49). -/
theorem decodeWord_illegal_iff (w : Word) :
    (∃ why, decodeWord w = .illegal why) ↔ ∀ r ∈ opTable, w &&& r.mask ≠ r.pattern :=
  ⟨fun ⟨why, hw⟩ _ hr hsel => decodeWord_ne_illegal_of_selects hr hsel why hw, decodeWord_of_no_row⟩

/-- Settles O3. -/
theorem decoderAgreesWithMatchMaskTable : Obligations.DecoderAgreesWithMatchMaskTable :=
  fun w => ⟨fun hsel => eq_of_full_mask hsel ▸ by decide, decodeWord_crcUpdate_of_match,
    fun hsel => eq_of_full_mask hsel ▸ by decide, decodeWord_crcCheck_of_match,
    decodeWord_linkOpen_of_match, fun hsel => eq_of_full_mask hsel ▸ by decide,
    decodeWord_linkCmd_of_match, decodeWord_linkXchg_of_match, decodeWord_illegal_iff w,
    fun _ h₁ _ h₂ => opTable_disjoint h₁ h₂⟩

/-- Settles O4. -/
theorem sampleWordsDecode : Obligations.SampleWordsDecode := by
  unfold Obligations.SampleWordsDecode
  decide

/-! ### Decoding the word of a command -/

/-- A command without payload is read back off its word, with its operands (R51). -/
theorem decodeWord_encodeWord {i : Instr} (hi : ∀ tx, i ≠ .linkXchg tx) :
    decodeWord (encodeWord i) = .complete i := by
  cases i with
  | crcInit => rfl
  | crcUpdate b => simp [encodeWord, decodeWord_crcUpdate, whenZero]
  | crcRead => rfl
  | crcCheck e0 e1 => simp [encodeWord, decodeWord_crcCheck, whenZero]
  | linkOpen mode khz => simp [encodeWord, decodeWord_linkOpen, whenZero]
  | linkClose => rfl
  | linkCmd c => simp [encodeWord, decodeWord_linkCmd, whenZero]
  | linkXchg tx => exact absurd rfl (hi tx)

/-- The word of a `link.xchg` is read back as the length of its payload (R52). -/
theorem decodeWord_encodeWord_linkXchg (tx : List Byte) :
    decodeWord (encodeWord (.linkXchg tx)) = .payload (BitVec.ofNat 16 tx.length) := by
  simp [encodeWord, decodeWord_linkXchg, whenZero]

/-- A payload that fits the field N is taken off the stream whole. -/
theorem takePayload_append {tx : List Byte} (rest : List Byte) (hlen : tx.length ≤ 65535) :
    takePayload (BitVec.ofNat 16 tx.length) (tx ++ rest) = .command (.linkXchg tx) rest := by
  have hN : (BitVec.ofNat 16 tx.length).toNat = tx.length := by
    rw [BitVec.toNat_ofNat]
    omega
  simp [takePayload_eq, hN]

/-- Decoding undoes encoding, whatever follows in the stream. -/
theorem decode_encode_append {i : Instr} (rest : List Byte) (hwf : i.wellFormed = true) :
    decode (encode i ++ rest) = .command i rest := by
  rw [encode, List.append_assoc, decode_wordBytes]
  cases i with
  | linkXchg tx =>
    rw [decodeWord_encodeWord_linkXchg]
    exact takePayload_append rest (of_decide_eq_true hwf)
  | crcInit | crcUpdate | crcRead | crcCheck | linkOpen | linkClose | linkCmd =>
    rw [decodeWord_encodeWord (by simp)]
    rfl

/-- Settles O1. -/
theorem decodeOfEncodeIsTheCommand : Obligations.DecodeOfEncodeIsTheCommand :=
  fun _ rest hwf => decode_encode_append rest hwf

/-! ### Encoding what a word decodes to -/

/-- A meaning other than ILLEGAL is given only with the reserved bits 0 (R48). -/
theorem whenZero_eq {zero : Bool} {w : Word} {m r : WordMeaning} (h : whenZero zero w m = r)
    (hr : ∀ why, r ≠ .illegal why) : zero = true ∧ m = r := by
  cases zero with
  | true => exact ⟨rfl, h⟩
  | false => exact absurd h.symm (hr _)

/-- A word is put together from the values of its fields (R45). -/
theorem makeWord_eq {w : Word} {op arg8 : Byte} {arg16 : HalfWord} (hop : opField w = op)
    (harg8 : arg8Field w = arg8) (harg16 : arg16Field w = arg16) : makeWord op arg8 arg16 = w := by
  rw [← hop, ← harg8, ← harg16, makeWord_of_fields]

/-- The operand field of `crc.check` is its two bytes, the second one high (R51). -/
theorem e1Field_append_e0Field (w : Word) : e1Field w ++ e0Field w = arg16Field w :=
  BitVec.extractLsb'_append_extractLsb'_eq_extractLsb' rfl

/-- ARG8 is the six reserved bits of `link.open` and its mode (R51). -/
theorem openReservedField_append_modeField (w : Word) : openReservedField w ++ modeField w = arg8Field w :=
  BitVec.extractLsb'_append_extractLsb'_eq_extractLsb' rfl

/-- A word that decodes to a command is that command's word, and the command has no payload. -/
theorem encodeWord_of_complete {w : Word} {i : Instr} (h : decodeWord w = .complete i) :
    encodeWord i = w ∧ payloadOf i = [] ∧ i.wellFormed = true := by
  unfold decodeWord at h
  split_ifs at h with hop hop hop hop hop hop hop hop
  all_goals
    obtain ⟨hzero, hi⟩ := whenZero_eq h nofun
    simp only [Bool.and_eq_true, beq_iff_eq] at hzero
  · cases hi; exact ⟨makeWord_eq hop hzero.1 hzero.2, rfl, rfl⟩
  · cases hi; exact ⟨makeWord_eq hop rfl hzero, rfl, rfl⟩
  · cases hi; exact ⟨makeWord_eq hop hzero.1 hzero.2, rfl, rfl⟩
  · cases hi; exact ⟨makeWord_eq hop hzero (e1Field_append_e0Field w).symm, rfl, rfl⟩
  · cases hi; exact ⟨makeWord_eq hop (hzero ▸ (openReservedField_append_modeField w).symm) rfl, rfl, rfl⟩
  · cases hi; exact ⟨makeWord_eq hop hzero.1 hzero.2, rfl, rfl⟩
  · cases hi; exact ⟨makeWord_eq hop rfl hzero, rfl, rfl⟩
  · cases hi

/-- A word that announces a payload of `n` bytes is the word of a `link.xchg` of that length. -/
theorem makeWord_of_payload {w : Word} {n : HalfWord} (h : decodeWord w = .payload n) :
    makeWord 0x13#8 0#8 n = w := by
  unfold decodeWord at h
  split_ifs at h with hop hop hop hop hop hop hop hop
  all_goals
    obtain ⟨hzero, hn⟩ := whenZero_eq h nofun
    cases hn
  exact makeWord_eq hop (beq_iff_eq.1 hzero) rfl

/-! ### The stream as words (R46) -/

/-- The bytes of four joined bytes are these bytes. -/
theorem wordBytes_joinWord (b0 b1 b2 b3 : Byte) : wordBytes (joinWord b0 b1 b2 b3) = [b0, b1, b2, b3] :=
  calc wordBytes (makeWord b3 b2 (b1 ++ b0))
    _ = [e0Field _, e1Field _, arg8Field _, opField _] := rfl
    _ = [b0, b1, b2, b3] := by
      rw [e0Field_makeWord, e1Field_makeWord, arg8Field_makeWord, opField_makeWord]

/-- A stream is too short for a word or begins with one. -/
theorem stream_short_or_word (bs : List Byte) :
    (bs.length < 4 ∧ decode bs = .incomplete) ∨ ∃ w rest, bs = wordBytes w ++ rest := by
  match bs with
  | [] | [_] | [_, _] | [_, _, _] => exact .inl ⟨by simp, rfl⟩
  | b0 :: b1 :: b2 :: b3 :: rest =>
    exact .inr ⟨joinWord b0 b1 b2 b3, rest, by rw [wordBytes_joinWord]; rfl⟩

/-- A payload is taken only when it is there, and it is the bytes taken (R52). -/
theorem takePayload_eq_command {n : HalfWord} {bs rest : List Byte} {i : Instr}
    (h : takePayload n bs = .command i rest) :
    ∃ tx, i = .linkXchg tx ∧ bs = tx ++ rest ∧ tx.length = n.toNat := by
  rw [takePayload_eq] at h
  split_ifs at h with hlen
  injection h with hi hrest
  exact ⟨_, hi.symm, by rw [← hrest, List.take_append_drop], by simpa using hlen⟩

/-- What decodes to a command is the encoding of it: it is the command's word, then its payload. -/
theorem encode_of_decode {bs rest : List Byte} {i : Instr} (h : decode bs = .command i rest) :
    i.wellFormed = true ∧ bs = encode i ++ rest := by
  obtain ⟨-, hshort⟩ | ⟨w, tail, rfl⟩ := stream_short_or_word bs
  · cases hshort.symm.trans h
  rw [decode_wordBytes] at h
  split at h
  next j hw =>
    obtain ⟨hword, hpayload, hwf⟩ := encodeWord_of_complete hw
    injection h with hi hrest
    subst hi hrest
    exact ⟨hwf, by rw [encode, hword, hpayload, List.append_nil]⟩
  next n hw =>
    obtain ⟨tx, rfl, rfl, hlen⟩ := takePayload_eq_command h
    have hN : BitVec.ofNat 16 tx.length = n := by rw [hlen, BitVec.ofNat_toNat, BitVec.setWidth_eq]
    have hfits : tx.length ≤ 65535 := by
      have hlt := n.isLt
      omega
    refine ⟨decide_eq_true hfits, ?_⟩
    rw [encode, encodeWord, hN, makeWord_of_payload hw, List.append_assoc]
    rfl
  next => cases h

/-- Settles O2. -/
theorem decodedBytesAreTheEncoding : Obligations.DecodedBytesAreTheEncoding :=
  fun _ _ _ h => encode_of_decode h

/-- Settles O5. -/
theorem commandBytesAndLength : Obligations.CommandBytesAndLength := by
  intro i
  refine ⟨rfl, ?_, ?_⟩
  · rintro tx rfl
    exact Laws.encode_length _
  · intro hi
    rw [Laws.encode_length]
    cases i with
    | linkXchg tx => exact absurd rfl (hi tx)
    | crcInit | crcUpdate | crcRead | crcCheck | linkOpen | linkClose | linkCmd => rfl

end Sys2Proof

namespace Sys2Proof.Machine

/-! ### What a step does with the front of the stream -/

theorem step_of_command {s : State} {i : Instr} {rest : List Byte} (h : decode s.stream = .command i rest) :
    step s = exec i (s.setStream rest) := by
  rw [step, h]

theorem step_of_incomplete {s : State} (h : decode s.stream = .incomplete) : step s = .next s := by
  rw [step, h]
  rfl

/-- Settles O6. -/
theorem stepRunsTheDecodedCommand : Obligations.StepRunsTheDecodedCommand :=
  fun _ _ _ hdec _ => step_of_command hdec

/-- Settles O7. -/
theorem illegalWordIsAnswered : Obligations.IllegalWordIsAnswered := by
  intro s w rest hs hrow
  obtain ⟨why, hw⟩ := decodeWord_of_no_row hrow
  exact step_of_illegal hs hw

/-- Settles O8. -/
theorem blockWaitsForAWholeCommand : Obligations.BlockWaitsForAWholeCommand := by
  refine ⟨fun s => step_of_incomplete, ?short, ?payload⟩
  case short =>
    intro bs hlen
    obtain ⟨-, hdec⟩ | ⟨w, rest, rfl⟩ := stream_short_or_word bs
    · exact hdec
    · simp [wordBytes] at hlen
      omega
  case payload =>
    intro n bs hlen
    have hw : decodeWord (makeWord 0x13#8 0#8 n) = .payload n := by simp [decodeWord_linkXchg, whenZero]
    rw [decode_wordBytes, hw]
    exact (takePayload_eq n bs).trans (if_neg (by omega))

/-- Settles O24. -/
theorem crcInitResult : Obligations.CrcInitResult := by
  refine ⟨exec_crcInit, by decide, ?illegal⟩
  case illegal =>
    intro s w rest hs hop hne
    exact step_of_reserved hs (decodeWord_crcInit hop) (operand_ne_zero_of_ne_makeWord hop hne)

end Sys2Proof.Machine
end

