-- ==== Sys2Proof/Proofs/LinkCommands.lean ====
section
/-! PROOF. The LINK unit's commands (41_transport.md R84 to R87): the next state of each, as an equation per case,
and the statements that read off these equations. -/

namespace Sys2Proof.Machine

/-! ### The state an exchange leaves -/

/-- The state after an exchange of `tx` that ended in `o`, with the PHASE and the response its command gives: the
exchange is on the record and one choice of the oracle is spent (R83, R86, R87). -/
def State.endExchange (s : State) (kind : TransferKind) (tx : List Byte) (o : PeerOutcome) (p : Phase)
    (r : Response) : State :=
  { s with
    linkcfg := { s.linkcfg with phase := p }
    response := some r
    transfers := s.transfers ++ [⟨kind, tx, o⟩]
    draws := s.draws.tail
    drawCount := s.drawCount + 1 }

/-- A link command whose exchange fails ends with the transport error, PHASE IDLE (R86, R87; 60_exceptions.md R97). -/
theorem raise_afterExchange {s : State} {kind : TransferKind} {tx : List Byte} {e : Code}
    (he : e.isTransport = true) :
    raise e (s.afterExchange kind tx) = s.endExchange kind tx (s.exchangeOutcome tx) .idle ⟨e, 0#16, []⟩ :=
  raise_of_transport he _

/-- The exchange ended in a timeout or a fault. -/
def ExchangeFailed (o : PeerOutcome) : Prop := (outcomeCode o).isTransport = true

@[simp] theorem not_exchangeFailed_ok (rx : List Byte) : ¬ ExchangeFailed (.ok rx) := Bool.false_ne_true

/-- An exchange fails, or delivers as many bytes as it sends (R83). -/
theorem exchangeOutcome_failed_or_ok (s : State) (tx : List Byte) :
    ExchangeFailed (s.exchangeOutcome tx) ∨ ∃ rx, s.exchangeOutcome tx = .ok rx ∧ rx.length = tx.length := by
  rcases exchangeOutcome_cases s tx with h | h | h
  · exact .inr h
  · exact .inl (by rw [h]; rfl)
  · exact .inl (by rw [h]; rfl)

/-- The same for the one byte of a command phase (R88). -/
theorem exchangeOutcome_failed_or_status (s : State) (c : Byte) :
    ExchangeFailed (s.exchangeOutcome [c]) ∨ ∃ status, s.exchangeOutcome [c] = .ok [status] := by
  refine (exchangeOutcome_failed_or_ok s [c]).imp_right ?_
  rintro ⟨rx, hrx, hlen⟩
  obtain ⟨status, rfl⟩ := List.length_eq_one_iff.1 (hlen.trans rfl)
  exact ⟨status, hrx⟩

/-- A settled outcome in front is spent, and the next one comes in front. -/
theorem endExchange_of_draw {s : State} {kind : TransferKind} {tx : List Byte} {o o' : PeerOutcome} {p : Phase}
    {r : Response} {ds : List PeerOutcome} (hdraws : s.draws = o' :: ds) :
    s.endExchange kind tx o p r =
      { s with
        linkcfg := { s.linkcfg with phase := p }
        response := some r
        transfers := s.transfers ++ [⟨kind, tx, o⟩]
        draws := ds
        drawCount := s.drawCount + 1 } := by
  rw [State.endExchange, hdraws, List.tail_cons]

/-- A settled failure is what the exchange gives. -/
theorem exchangeOutcome_of_failed_draw {s : State} {tx : List Byte} {o : PeerOutcome} {ds : List PeerOutcome}
    (hdraws : s.draws = o :: ds) (hf : ExchangeFailed o) : s.exchangeOutcome tx = o := by
  cases o with
  | ok rx => exact absurd hf (not_exchangeFailed_ok rx)
  | timeout => exact exchangeOutcome_of_timeout hdraws
  | fault => exact exchangeOutcome_of_fault hdraws

/-! ### LINK.OPEN and LINK.CLOSE (R84, R85) -/

section
variable {s : State} {mode : BitVec 2} {khz : HalfWord}

theorem exec_linkOpen_of_open (ho : s.linkcfg.isOpen = true) :
    exec (.linkOpen mode khz) s = .next { s with response := some ⟨.alreadyOpen, 0#16, []⟩ } := by
  simp [exec, execLinkOpen, ho, raise_of_not_transport (e := .alreadyOpen) rfl, State.respond]

theorem exec_linkOpen_of_inRange (ho : s.linkcfg.isOpen = false) (hk : clockInRange khz = true) :
    exec (.linkOpen mode khz) s =
      .next { s with linkcfg := ⟨true, .idle, mode, khz⟩, response := some ⟨.ok, 0#16, []⟩ } := by
  simp [exec, execLinkOpen, ho, hk, State.openSession, State.respond]

theorem exec_linkOpen_of_outOfRange (ho : s.linkcfg.isOpen = false) (hk : clockInRange khz = false) :
    exec (.linkOpen mode khz) s = .next { s with response := some ⟨.invalidArgument, 0#16, []⟩ } := by
  simp [exec, execLinkOpen, ho, hk, raise_of_not_transport (e := .invalidArgument) rfl, State.respond]

theorem exec_linkClose_of_open (ho : s.linkcfg.isOpen = true) :
    exec .linkClose s =
      .next { s with
        linkcfg := { s.linkcfg with isOpen := false, phase := .idle }
        response := some ⟨.ok, 0#16, []⟩ } := by
  simp [exec, execLinkClose, ho, State.closeSession, State.respond]

theorem exec_linkClose_of_closed (ho : s.linkcfg.isOpen = false) :
    exec .linkClose s = .next { s with response := some ⟨.linkNotOpen, 0#16, []⟩ } := by
  simp [exec, execLinkClose, ho, raise_of_not_transport (e := .linkNotOpen) rfl, State.respond]

/-- A rate is refused below 300 and above 750 (R84). -/
theorem clockInRange_eq_false_iff (khz : HalfWord) :
    clockInRange khz = false ↔ khz.toNat < 300 ∨ 750 < khz.toNat := by
  rw [← Bool.not_eq_true, clockInRange_iff]
  omega

end

/-! ### LINK.CMD (R86) -/

section
variable {s : State} {c : Byte}

theorem exec_linkCmd_of_closed (ho : s.linkcfg.isOpen = false) :
    exec (.linkCmd c) s = .next { s with response := some ⟨.linkNotOpen, 0#16, []⟩ } := by
  simp [exec, execLinkCmd, ho, raise_of_not_transport (e := .linkNotOpen) rfl, State.respond]

theorem exec_linkCmd_of_failed (ho : s.linkcfg.isOpen = true) (hf : ExchangeFailed (s.exchangeOutcome [c])) :
    exec (.linkCmd c) s =
      .next (s.endExchange .command [c] (s.exchangeOutcome [c]) .idle
        ⟨outcomeCode (s.exchangeOutcome [c]), 0#16, []⟩) := by
  rw [← raise_afterExchange hf]
  simp only [exec, execLinkCmd, ho, if_true]
  cases hx : s.exchangeOutcome [c] with
  | ok rx => exact absurd (hx ▸ hf) (not_exchangeFailed_ok rx)
  | timeout => rfl
  | fault => rfl

/-- LINK.CMD with a failure settled in front. -/
theorem exec_linkCmd_of_failed_draw {o : PeerOutcome} {ds : List PeerOutcome} (ho : s.linkcfg.isOpen = true)
    (hdraws : s.draws = o :: ds) (hf : ExchangeFailed o) :
    exec (.linkCmd c) s =
      .next { s with
        linkcfg := { s.linkcfg with phase := .idle }
        response := some ⟨outcomeCode o, 0#16, []⟩
        transfers := s.transfers ++ [⟨.command, [c], o⟩]
        draws := ds
        drawCount := s.drawCount + 1 } := by
  have hx : s.exchangeOutcome [c] = o := exchangeOutcome_of_failed_draw hdraws hf
  rw [exec_linkCmd_of_failed ho (hx.symm ▸ hf), hx, endExchange_of_draw hdraws]

theorem exec_linkCmd_of_status {status : Byte} (ho : s.linkcfg.isOpen = true)
    (hx : s.exchangeOutcome [c] = .ok [status]) :
    exec (.linkCmd c) s =
      .next (s.endExchange .command [c] (.ok [status]) (classify s.lineFaultSet status).phase
        ⟨.ok, statusValue (classify s.lineFaultSet status) status, []⟩) := by
  simp only [exec, execLinkCmd, ho, if_true, hx]
  simp [finishCommand, State.afterExchange, State.setPhase, State.respond, State.endExchange, hx]

/-- LINK.CMD with a status byte settled in front. -/
theorem exec_linkCmd_of_status_draw {status : Byte} {ds : List PeerOutcome} (ho : s.linkcfg.isOpen = true)
    (hdraws : s.draws = .ok [status] :: ds) :
    exec (.linkCmd c) s =
      .next { s with
        linkcfg := { s.linkcfg with phase := (classify s.lineFaultSet status).phase }
        response := some ⟨.ok, statusValue (classify s.lineFaultSet status) status, []⟩
        transfers := s.transfers ++ [⟨.command, [c], .ok [status]⟩]
        draws := ds
        drawCount := s.drawCount + 1 } := by
  rw [exec_linkCmd_of_status ho (exchangeOutcome_of_draw (tx := [c]) hdraws rfl), endExchange_of_draw hdraws]

end

/-! ### LINK.XCHG (R87) -/

section
variable {s : State} {tx : List Byte}

theorem exec_linkXchg_of_closed (ho : s.linkcfg.isOpen = false) :
    exec (.linkXchg tx) s = .next { s with response := some ⟨.linkNotOpen, 0#16, []⟩ } := by
  simp [exec, execLinkXchg, ho, raise_of_not_transport (e := .linkNotOpen) rfl, State.respond]

theorem exec_linkXchg_nil (ho : s.linkcfg.isOpen = true) :
    exec (.linkXchg []) s = .next { s with response := some ⟨.invalidArgument, 0#16, []⟩ } := by
  simp [exec, execLinkXchg, ho, raise_of_not_transport (e := .invalidArgument) rfl, State.respond]

theorem exec_linkXchg_of_idle (ho : s.linkcfg.isOpen = true) (hne : tx ≠ []) (hp : s.linkcfg.phase ≠ .data) :
    exec (.linkXchg tx) s = .next { s with response := some ⟨.notReady, 0#16, []⟩ } := by
  simp [exec, execLinkXchg, ho, hne, hp, raise_of_not_transport (e := .notReady) rfl, State.respond]

theorem exec_linkXchg_of_failed (ho : s.linkcfg.isOpen = true) (hne : tx ≠ []) (hp : s.linkcfg.phase = .data)
    (hf : ExchangeFailed (s.exchangeOutcome tx)) :
    exec (.linkXchg tx) s =
      .next (s.endExchange .data tx (s.exchangeOutcome tx) .idle
        ⟨outcomeCode (s.exchangeOutcome tx), 0#16, []⟩) := by
  rw [← raise_afterExchange hf]
  simp only [exec, execLinkXchg, ho, hp, List.isEmpty_iff, hne, if_true, if_false]
  cases hx : s.exchangeOutcome tx with
  | ok rx => exact absurd (hx ▸ hf) (not_exchangeFailed_ok rx)
  | timeout => rfl
  | fault => rfl

/-- LINK.XCHG with a failure settled in front. -/
theorem exec_linkXchg_of_failed_draw {o : PeerOutcome} {ds : List PeerOutcome} (ho : s.linkcfg.isOpen = true)
    (hne : tx ≠ []) (hp : s.linkcfg.phase = .data) (hdraws : s.draws = o :: ds) (hf : ExchangeFailed o) :
    exec (.linkXchg tx) s =
      .next { s with
        linkcfg := { s.linkcfg with phase := .idle }
        response := some ⟨outcomeCode o, 0#16, []⟩
        transfers := s.transfers ++ [⟨.data, tx, o⟩]
        draws := ds
        drawCount := s.drawCount + 1 } := by
  have hx : s.exchangeOutcome tx = o := exchangeOutcome_of_failed_draw hdraws hf
  rw [exec_linkXchg_of_failed ho hne hp (hx.symm ▸ hf), hx, endExchange_of_draw hdraws]

theorem exec_linkXchg_of_ok {rx : List Byte} (ho : s.linkcfg.isOpen = true) (hne : tx ≠ [])
    (hp : s.linkcfg.phase = .data) (hx : s.exchangeOutcome tx = .ok rx) :
    exec (.linkXchg tx) s = .next (s.endExchange .data tx (.ok rx) .data ⟨.ok, 0#16, rx⟩) := by
  simp only [exec, execLinkXchg, ho, hp, List.isEmpty_iff, hne, if_true, if_false, hx]
  simp [State.afterExchange, State.respond, State.endExchange, hx, ← hp]

/-- LINK.XCHG with as many received bytes settled in front as it sends. PHASE stays DATA. -/
theorem exec_linkXchg_of_ok_draw {rx : List Byte} {ds : List PeerOutcome} (ho : s.linkcfg.isOpen = true)
    (hne : tx ≠ []) (hp : s.linkcfg.phase = .data) (hdraws : s.draws = .ok rx :: ds)
    (hlen : rx.length = tx.length) :
    exec (.linkXchg tx) s =
      .next { s with
        response := some ⟨.ok, 0#16, rx⟩
        transfers := s.transfers ++ [⟨.data, tx, .ok rx⟩]
        draws := ds
        drawCount := s.drawCount + 1 } := by
  rw [exec_linkXchg_of_ok ho hne hp (exchangeOutcome_of_draw hdraws hlen), endExchange_of_draw hdraws, ← hp]

end

/-! ### The obligations on one command -/

/-- Settles O32. -/
theorem linkOpenOpensASession : Obligations.LinkOpenOpensASession :=
  fun _ khz _ hclosed hlow hhigh => exec_linkOpen_of_inRange hclosed ((clockInRange_iff khz).2 ⟨hlow, hhigh⟩)

/-- Settles O33. -/
theorem linkOpenErrors : Obligations.LinkOpenErrors :=
  ⟨fun _ _ _ hopen => exec_linkOpen_of_open hopen,
    fun _ khz _ hclosed hk => exec_linkOpen_of_outOfRange hclosed ((clockInRange_eq_false_iff khz).2 hk)⟩

/-- Settles O34. -/
theorem linkCloseClosesTheSession : Obligations.LinkCloseClosesTheSession :=
  fun _ hopen => exec_linkClose_of_open hopen

/-- Settles O35. -/
theorem closedLinkIsRefused : Obligations.ClosedLinkIsRefused :=
  fun _ hclosed => ⟨exec_linkClose_of_closed hclosed, fun _ => exec_linkCmd_of_closed hclosed,
    fun _ => exec_linkXchg_of_closed hclosed⟩

/-- Settles O38. -/
theorem linkXchgErrors : Obligations.LinkXchgErrors :=
  fun _ hopen => ⟨exec_linkXchg_nil hopen,
    fun _ hne hidle => exec_linkXchg_of_idle hopen hne (by simp [hidle])⟩

/-- Settles O37. -/
theorem linkXchgResult : Obligations.LinkXchgResult :=
  fun _ _ _ hopen hdata hne =>
    ⟨fun _ hlen hdraws => exec_linkXchg_of_ok_draw hopen hne hdata hdraws hlen,
      fun hdraws => exec_linkXchg_of_failed_draw hopen hne hdata hdraws rfl,
      fun hdraws => exec_linkXchg_of_failed_draw hopen hne hdata hdraws rfl⟩

/-! ### The value of a LINK.CMD response -/

/-- The value is the little-endian pair of the status and its class code (R82). -/
theorem statusValue_eq_expectedValue (k : StatusClass) (s : Byte) : statusValue k s = expectedValue s k.code := rfl

/-- `class << 8 | status` (30_encoding.md R50). -/
theorem statusValue_eq_or (k : StatusClass) (s : Byte) :
    statusValue k s = (k.code.zeroExtend 16 <<< 8) ||| s.zeroExtend 16 := by
  rw [statusValue_eq_expectedValue, expectedValue_eq_or, BitVec.or_comm]

/-- The low byte counts once, the high byte 256 times (20_memory.md R30). -/
theorem expectedValue_toNat (e0 e1 : Byte) : (expectedValue e0 e1).toNat = e0.toNat + 256 * e1.toNat := by
  rw [expectedValue, BitVec.toNat_append, ← Nat.shiftLeft_add_eq_or_of_lt e0.isLt, Nat.shiftLeft_eq]
  omega

theorem StatusClass.code_toNat_le (k : StatusClass) : k.code.toNat ≤ 3 := by
  cases k <;> decide

/-- Settles O31. -/
theorem statusValueFields : Obligations.StatusValueFields := by
  refine ⟨rfl, rfl, rfl, rfl, fun k s => ⟨expectedValue_high s k.code, expectedValue_low s k.code, ?_⟩⟩
  rw [statusValue_eq_expectedValue, expectedValue_toNat]
  have hcode := k.code_toNat_le
  have hstatus := s.isLt
  omega

/-- PHASE after a command phase is DATA exactly for the class READY (R86). -/
theorem StatusClass.phase_eq_ite (k : StatusClass) : k.phase = if k = .ready then .data else .idle := by
  cases k <;> rfl

/-! ### Settled outcomes (R83; log entry 3) -/

/-- The state in which the outcome an exchange of `tx` would have stands settled in front. -/
def State.settle (s : State) (tx : List Byte) : State := { s with draws := s.exchangeOutcome tx :: s.draws.tail }

/-- A settled outcome that already fits the exchange is the one it has. -/
@[simp] theorem exchangeOutcome_settle (s : State) (tx : List Byte) :
    (s.settle tx).exchangeOutcome tx = s.exchangeOutcome tx := by
  rcases exchangeOutcome_cases s tx with ⟨rx, hx, hlen⟩ | hx | hx
  · rw [hx, exchangeOutcome_of_draw (by rw [State.settle, hx]) hlen]
  · rw [hx, exchangeOutcome_of_timeout (by rw [State.settle, hx])]
  · rw [hx, exchangeOutcome_of_fault (by rw [State.settle, hx])]

/-- The exchange spends the settled outcome and leaves the state it would have left without it. -/
@[simp] theorem endExchange_settle (s : State) (tx' : List Byte) (kind : TransferKind) (tx : List Byte)
    (o : PeerOutcome) (p : Phase) (r : Response) :
    (s.settle tx').endExchange kind tx o p r = s.endExchange kind tx o p r := rfl

theorem exec_linkCmd_settle {s : State} (c : Byte) (ho : s.linkcfg.isOpen = true) :
    exec (.linkCmd c) (s.settle [c]) = exec (.linkCmd c) s := by
  have ho' : (s.settle [c]).linkcfg.isOpen = true := ho
  rcases exchangeOutcome_failed_or_status s c with hf | ⟨status, hx⟩
  · rw [exec_linkCmd_of_failed ho hf, exec_linkCmd_of_failed ho' (by rwa [exchangeOutcome_settle])]
    simp
  · rw [exec_linkCmd_of_status ho hx, exec_linkCmd_of_status ho' (by rwa [exchangeOutcome_settle])]
    rfl

theorem exec_linkXchg_settle {s : State} {tx : List Byte} (ho : s.linkcfg.isOpen = true) (hne : tx ≠ [])
    (hp : s.linkcfg.phase = .data) : exec (.linkXchg tx) (s.settle tx) = exec (.linkXchg tx) s := by
  have ho' : (s.settle tx).linkcfg.isOpen = true := ho
  rcases exchangeOutcome_failed_or_ok s tx with hf | ⟨rx, hx, -⟩
  · rw [exec_linkXchg_of_failed ho hne hp hf,
      exec_linkXchg_of_failed ho' hne hp (by rwa [exchangeOutcome_settle])]
    simp
  · rw [exec_linkXchg_of_ok ho hne hp hx, exec_linkXchg_of_ok ho' hne hp (by rwa [exchangeOutcome_settle])]
    rfl

/-- Settles O39: the outcome is the one the exchange has. -/
theorem exchangeBehavesAsASettledOutcome : Obligations.ExchangeBehavesAsASettledOutcome := by
  refine ⟨?command, ?data⟩
  case command =>
    intro c s ho
    refine ⟨_, ?_, rfl, (exec_linkCmd_settle c ho).symm⟩
    rcases exchangeOutcome_cases s [c] with ⟨rx, hx, hlen⟩ | hx | hx
    · obtain ⟨status, rfl⟩ := List.length_eq_one_iff.1 (hlen.trans rfl)
      exact .inr (.inr ⟨status, hx⟩)
    · exact .inl hx
    · exact .inr (.inl hx)
  case data =>
    intro tx s ho hp hne
    refine ⟨_, ?_, rfl, (exec_linkXchg_settle ho hne hp).symm⟩
    rcases exchangeOutcome_cases s tx with hx | hx | hx
    · exact .inr (.inr hx)
    · exact .inl hx
    · exact .inr (.inl hx)

/-- Settles O40. -/
theorem everyOutcomeCanHappen : Obligations.EveryOutcomeCanHappen :=
  fun _ _ _ hlen => ⟨exchangeOutcome_of_draw rfl hlen, exchangeOutcome_of_timeout rfl, exchangeOutcome_of_fault rfl⟩

/-! ### The slots of an exchange (R76) -/

/-- Slot `k` holds the settled byte `k` where there is one. -/
theorem fillSlots_getElem? (count slot : Nat) {n k : Nat} {settled : List Byte} (hn : k < n)
    (hk : k < settled.length) : (fillSlots count n slot settled)[k]? = settled[k]? := by
  induction n generalizing slot settled k with
  | zero => omega
  | succ n ih =>
    cases settled with
    | nil => simp at hk
    | cons b bs =>
      cases k with
      | zero => rfl
      | succ k => exact ih (slot + 1) (by omega) (by simpa using hk)

/-- A successful exchange receives as many bytes as it sends. -/
theorem length_of_exchangeOutcome_ok {s : State} {tx rx : List Byte} (hx : s.exchangeOutcome tx = .ok rx) :
    rx.length = tx.length := by
  obtain hf | ⟨rx', hx', hlen⟩ := exchangeOutcome_failed_or_ok s tx
  · exact absurd (hx ▸ hf) (not_exchangeFailed_ok rx)
  · cases hx.symm.trans hx'
    exact hlen

/-- What a successful exchange received is the settled bytes, fitted to its length (log entry 4). -/
theorem fillSlots_of_exchangeOutcome_ok {s : State} {tx rx settled : List Byte} {ds : List PeerOutcome}
    (hx : s.exchangeOutcome tx = .ok rx) (hdraws : s.draws = .ok settled :: ds) :
    fillSlots s.drawCount tx.length 0 settled = rx := by
  simpa [State.exchangeOutcome, State.oracle, hdraws, fitOutcome] using hx

/-- Settles O41. -/
theorem exchangeByteSlots : Obligations.ExchangeByteSlots := by
  intro s tx rx hx
  refine ⟨length_of_exchangeOutcome_ok hx, ?slots, ?delivered⟩
  case slots =>
    intro settled ds k hdraws hk hsettled
    rw [← fillSlots_of_exchangeOutcome_ok hx hdraws]
    exact fillSlots_getElem? _ _ hk hsettled
  case delivered =>
    intro ho hp hne
    exact ⟨_, exec_linkXchg_of_ok ho hne hp hx, rfl, rfl⟩

/-! ### Priority of errors (60_exceptions.md R98) -/

/-- The code of a link command that got as far as its exchange. -/
theorem linkCmd_lastCode {s : State} (c : Byte) (ho : s.linkcfg.isOpen = true) :
    ∃ t, exec (.linkCmd c) s = .next t ∧ t.lastCode = some (outcomeCode (s.exchangeOutcome [c])) := by
  rcases exchangeOutcome_failed_or_status s c with hf | ⟨status, hx⟩
  · exact ⟨_, exec_linkCmd_of_failed ho hf, rfl⟩
  · exact ⟨_, exec_linkCmd_of_status ho hx, by rw [hx]; rfl⟩

theorem linkXchg_lastCode {s : State} {tx : List Byte} (ho : s.linkcfg.isOpen = true) (hne : tx ≠ [])
    (hp : s.linkcfg.phase = .data) :
    ∃ t, exec (.linkXchg tx) s = .next t ∧ t.lastCode = some (outcomeCode (s.exchangeOutcome tx)) := by
  rcases exchangeOutcome_failed_or_ok s tx with hf | ⟨rx, hx, -⟩
  · exact ⟨_, exec_linkXchg_of_failed ho hne hp hf, rfl⟩
  · exact ⟨_, exec_linkXchg_of_ok ho hne hp hx, by rw [hx]; rfl⟩

/-- Settles O51: each test of the priority list, in its order, decides which equation of the command applies. -/
theorem errorPriority : Obligations.ErrorPriority := by
  intro s
  refine ⟨fun mode khz => ?linkOpen, ?linkClose, fun c => ?linkCmd, fun tx => ?linkXchg⟩
  case linkOpen =>
    split_ifs with ho hk
    · exact ⟨_, exec_linkOpen_of_open ho, rfl⟩
    · exact ⟨_, exec_linkOpen_of_outOfRange (by simpa using ho) ((clockInRange_eq_false_iff khz).2 hk), rfl⟩
    · have hrange : clockInRange khz = true := (clockInRange_iff khz).2 (by omega)
      exact ⟨_, exec_linkOpen_of_inRange (by simpa using ho) hrange, rfl⟩
  case linkClose =>
    split_ifs with ho
    · exact ⟨_, exec_linkClose_of_closed ho, rfl⟩
    · exact ⟨_, exec_linkClose_of_open (by simpa using ho), rfl⟩
  case linkCmd =>
    split_ifs with ho
    · exact ⟨_, exec_linkCmd_of_closed ho, rfl⟩
    · exact linkCmd_lastCode c (by simpa using ho)
  case linkXchg =>
    split_ifs with ho hlen hp
    · exact ⟨_, exec_linkXchg_of_closed ho, rfl⟩
    · cases List.length_eq_zero_iff.1 hlen
      exact ⟨_, exec_linkXchg_nil (by simpa using ho), rfl⟩
    · have hne : tx ≠ [] := fun h => hlen (by simp [h])
      exact ⟨_, exec_linkXchg_of_idle (by simpa using ho) hne hp, rfl⟩
    · have hne : tx ≠ [] := fun h => hlen (by simp [h])
      exact linkXchg_lastCode (by simpa using ho) hne (by simpa using hp)

/-- Settles O47. -/
theorem responseCodeBytes : Obligations.ResponseCodeBytes :=
  ⟨rfl, fun c => by cases c <;> decide⟩

end Sys2Proof.Machine
end

