-- ==== Sys2Proof/Proofs/Effects.lean ====
section
/-! PROOF. Everything a command and a step can do, said once (60_exceptions.md R97; 30_encoding.md R50), and the
statements about responses and errors that follow from it. -/

namespace Sys2Proof.Machine

/-- The effects of a command: one constructor per way a command can end. -/
inductive Effect (s : State) : Instr → State → Prop
  /-- A CRC command: only `crc.init` and `crc.update` write CRC, only `crc.read` and `crc.check` give a value. -/
  | crc {i : Instr} {c v : HalfWord} (hi : isCrcCommand i = true)
      (hwrites : i = .crcInit ∨ (∃ b, i = .crcUpdate b) ∨ c = s.crc)
      (hvalue : i = .crcRead ∨ (∃ e0 e1, i = .crcCheck e0 e1) ∨ v = 0#16) :
      Effect s i { s with crc := c, response := some ⟨.ok, v, []⟩ }
  /-- An error raised before anything is sent. -/
  | refused {i : Instr} {e : Code} (hcode : e ∈ codesOf i) (hok : e ≠ .ok) (he : e.isTransport = false) :
      Effect s i { s with response := some ⟨e, 0#16, []⟩ }
  /-- LINK.OPEN at a legal rate. -/
  | opened {mode : BitVec 2} {khz : HalfWord} (hclosed : s.linkcfg.isOpen = false)
      (hrange : 300 ≤ khz.toNat ∧ khz.toNat ≤ 750) :
      Effect s (.linkOpen mode khz)
        { s with linkcfg := ⟨true, .idle, mode, khz⟩, response := some ⟨.ok, 0#16, []⟩ }
  /-- LINK.CLOSE. -/
  | closed (hopen : s.linkcfg.isOpen = true) :
      Effect s .linkClose
        { s with
          linkcfg := { s.linkcfg with isOpen := false, phase := .idle }
          response := some ⟨.ok, 0#16, []⟩ }
  /-- LINK.CMD whose exchange failed. -/
  | commandFailed {c : Byte} (hopen : s.linkcfg.isOpen = true) {o : PeerOutcome} (hfailed : ExchangeFailed o) :
      Effect s (.linkCmd c) (s.endExchange .command [c] o .idle ⟨outcomeCode o, 0#16, []⟩)
  /-- LINK.CMD that got a status byte. -/
  | status {c status : Byte} (hopen : s.linkcfg.isOpen = true) :
      Effect s (.linkCmd c)
        (s.endExchange .command [c] (.ok [status]) (classify s.lineFaultSet status).phase
          ⟨.ok, statusValue (classify s.lineFaultSet status) status, []⟩)
  /-- LINK.XCHG whose exchange failed. -/
  | dataFailed {tx : List Byte} (hopen : s.linkcfg.isOpen = true) (hne : tx ≠ [])
      (hphase : s.linkcfg.phase = .data) {o : PeerOutcome} (hfailed : ExchangeFailed o) :
      Effect s (.linkXchg tx) (s.endExchange .data tx o .idle ⟨outcomeCode o, 0#16, []⟩)
  /-- LINK.XCHG that delivers as many bytes as it sent. -/
  | delivered {tx rx : List Byte} (hopen : s.linkcfg.isOpen = true) (hne : tx ≠ [])
      (hphase : s.linkcfg.phase = .data) (hlen : rx.length = tx.length) :
      Effect s (.linkXchg tx) (s.endExchange .data tx (.ok rx) .data ⟨.ok, 0#16, rx⟩)

theorem exec_linkOpen_effect (mode : BitVec 2) (khz : HalfWord) (s : State) :
    ∃ t, exec (.linkOpen mode khz) s = .next t ∧ Effect s (.linkOpen mode khz) t := by
  cases ho : s.linkcfg.isOpen with
  | true => exact ⟨_, exec_linkOpen_of_open ho, .refused (by simp [codesOf]) nofun rfl⟩
  | false =>
    cases hk : clockInRange khz with
    | true => exact ⟨_, exec_linkOpen_of_inRange ho hk, .opened ho ((clockInRange_iff khz).1 hk)⟩
    | false => exact ⟨_, exec_linkOpen_of_outOfRange ho hk, .refused (by simp [codesOf]) nofun rfl⟩

theorem exec_linkClose_effect (s : State) : ∃ t, exec .linkClose s = .next t ∧ Effect s .linkClose t := by
  cases ho : s.linkcfg.isOpen with
  | true => exact ⟨_, exec_linkClose_of_open ho, .closed ho⟩
  | false => exact ⟨_, exec_linkClose_of_closed ho, .refused (by simp [codesOf]) nofun rfl⟩

theorem exec_linkCmd_effect (c : Byte) (s : State) :
    ∃ t, exec (.linkCmd c) s = .next t ∧ Effect s (.linkCmd c) t := by
  cases ho : s.linkcfg.isOpen with
  | false => exact ⟨_, exec_linkCmd_of_closed ho, .refused (by simp [codesOf]) nofun rfl⟩
  | true =>
    obtain hf | ⟨status, hx⟩ := exchangeOutcome_failed_or_status s c
    · exact ⟨_, exec_linkCmd_of_failed ho hf, .commandFailed ho hf⟩
    · exact ⟨_, exec_linkCmd_of_status ho hx, .status ho⟩

theorem exec_linkXchg_effect (tx : List Byte) (s : State) :
    ∃ t, exec (.linkXchg tx) s = .next t ∧ Effect s (.linkXchg tx) t := by
  cases ho : s.linkcfg.isOpen with
  | false => exact ⟨_, exec_linkXchg_of_closed ho, .refused (by simp [codesOf]) nofun rfl⟩
  | true =>
    by_cases hne : tx = []
    · subst hne
      exact ⟨_, exec_linkXchg_nil ho, .refused (by simp [codesOf]) nofun rfl⟩
    by_cases hp : s.linkcfg.phase = .data
    · obtain hf | ⟨rx, hx, hlen⟩ := exchangeOutcome_failed_or_ok s tx
      · exact ⟨_, exec_linkXchg_of_failed ho hne hp hf, .dataFailed ho hne hp hf⟩
      · exact ⟨_, exec_linkXchg_of_ok ho hne hp hx, .delivered ho hne hp hlen⟩
    · exact ⟨_, exec_linkXchg_of_idle ho hne hp, .refused (by simp [codesOf]) nofun rfl⟩

/-- Every command answers a next state, and `Effect` says what it can be. -/
theorem exec_effect (i : Instr) (s : State) : ∃ t, exec i s = .next t ∧ Effect s i t := by
  cases i with
  | crcInit => exact ⟨_, exec_crcInit s, .crc rfl (.inl rfl) (.inr (.inr rfl))⟩
  | crcUpdate b => exact ⟨_, exec_crcUpdate b s, .crc rfl (.inr (.inl ⟨b, rfl⟩)) (.inr (.inr rfl))⟩
  | crcRead => exact ⟨_, exec_crcRead s, .crc rfl (.inr (.inr rfl)) (.inl rfl)⟩
  | crcCheck e0 e1 => exact ⟨_, exec_crcCheck e0 e1 s, .crc rfl (.inr (.inr rfl)) (.inr (.inl ⟨e0, e1, rfl⟩))⟩
  | linkOpen mode khz => exact exec_linkOpen_effect mode khz s
  | linkClose => exact exec_linkClose_effect s
  | linkCmd c => exact exec_linkCmd_effect c s
  | linkXchg tx => exact exec_linkXchg_effect tx s

theorem effect_of_exec {i : Instr} {s t : State} (h : exec i s = .next t) : Effect s i t := by
  obtain ⟨t', hexec, heffect⟩ := exec_effect i s
  cases h.symm.trans hexec
  exact heffect

/-! ### What every effect has in common -/

/-- Only the two transport errors come from an exchange (60_exceptions.md R98 item 5). -/
theorem Code.isTransport_iff (c : Code) : c.isTransport = true ↔ c = .transportTimeout ∨ c = .transportFault := by
  cases c <;> simp [Code.isTransport]

/-- An exchange that failed ended in a timeout or a fault. -/
theorem outcomeCode_of_failed {o : PeerOutcome} (h : ExchangeFailed o) :
    outcomeCode o = .transportTimeout ∨ outcomeCode o = .transportFault :=
  (Code.isTransport_iff _).1 h

section
variable {s t : State} {i : Instr}

/-- A command leaves the rest of the stream alone. -/
theorem Effect.stream (h : Effect s i t) : t.stream = s.stream := by
  cases h <;> rfl

/-- Only `crc.init` and `crc.update` write CRC (10_state.md R14). -/
theorem Effect.crc_eq (h : Effect s i t) (hinit : i ≠ .crcInit) (hupdate : ∀ b, i ≠ .crcUpdate b) :
    t.crc = s.crc := by
  cases h with
  | crc _ hwrites _ =>
    rcases hwrites with hi | ⟨b, hi⟩ | hc
    · exact absurd hi hinit
    · exact absurd hi (hupdate b)
    · exact hc
  | refused | opened | closed | commandFailed | status | dataFailed | delivered => rfl

/-- The shape of a command's response (30_encoding.md R50; 60_exceptions.md R96). -/
structure AnswersAs (i : Instr) (r : Response) : Prop where
  code_listed : r.code ∈ codesOf i
  error_bare : r.code ≠ .ok → r.value = 0#16 ∧ r.data = []
  data_of_xchg : (∀ tx, i ≠ .linkXchg tx) → r.data = []
  value_of_reader : i ≠ .crcRead → (∀ e0 e1, i ≠ .crcCheck e0 e1) → (∀ c, i ≠ .linkCmd c) → r.value = 0#16

/-- A response without value and data has the shape, if its code is listed. -/
theorem answersAs_bare {e : Code} (hcode : e ∈ codesOf i) : AnswersAs i ⟨e, 0#16, []⟩ :=
  ⟨hcode, fun _ => ⟨rfl, rfl⟩, fun _ => rfl, fun _ _ _ => rfl⟩

theorem Effect.response (h : Effect s i t) : ∃ r, t.response = some r ∧ AnswersAs i r := by
  cases h with
  | crc hi _ hvalue =>
    refine ⟨_, rfl, ?_, by simp, fun _ => rfl, ?_⟩
    · cases i with
      | crcInit | crcUpdate | crcRead | crcCheck => simp [codesOf]
      | linkOpen | linkClose | linkCmd | linkXchg => cases hi
    · intro hread hcheck _
      rcases hvalue with hi | ⟨e0, e1, hi⟩ | hv
      · exact absurd hi hread
      · exact absurd hi (hcheck e0 e1)
      · exact hv
  | refused hcode => exact ⟨_, rfl, answersAs_bare hcode⟩
  | opened | closed => exact ⟨_, rfl, answersAs_bare (by simp [codesOf])⟩
  | commandFailed _ hfailed | dataFailed _ _ _ hfailed =>
    refine ⟨_, rfl, answersAs_bare ?_⟩
    rcases outcomeCode_of_failed hfailed with h | h <;> simp [h, codesOf]
  | @status c => exact ⟨_, rfl, by simp [codesOf], by simp, fun _ => rfl, fun _ _ h => absurd rfl (h c)⟩
  | @delivered tx => exact ⟨_, rfl, by simp [codesOf], by simp, fun h => absurd rfl (h tx), fun _ _ _ => rfl⟩

/-- A step of a command that keeps a session open keeps its MODE and CLK_KHZ (41_transport.md R95). -/
theorem Effect.keeps_configuration (h : Effect s i t) (hs : s.linkcfg.isOpen = true)
    (ht : t.linkcfg.isOpen = true) : t.linkcfg.mode = s.linkcfg.mode ∧ t.linkcfg.clkKhz = s.linkcfg.clkKhz := by
  cases h with
  | opened hclosed => exact absurd hs (by simp [hclosed])
  | closed => cases ht
  | crc | refused | commandFailed | status | dataFailed | delivered => exact ⟨rfl, rfl⟩

end

/-! ### Steps -/

/-- Everything a step can do: a well-formed command's effect, the answer to an illegal word, or waiting. -/
theorem step_cases {s t : State} (h : step s = .next t) :
    (∃ i rest, decode s.stream = .command i rest ∧ i.wellFormed = true ∧ Effect (s.setStream rest) i t) ∨
      (∃ why rest, decode s.stream = .illegal why rest ∧ t = answerIllegal rest s) ∨
      (decode s.stream = .incomplete ∧ t = s) := by
  unfold step at h
  split at h
  next i rest hdec => exact .inl ⟨i, rest, hdec, (encode_of_decode hdec).1, effect_of_exec h⟩
  next why rest hdec => cases h; exact .inr (.inl ⟨why, rest, hdec, rfl⟩)
  next hdec => cases h; exact .inr (.inr ⟨hdec, rfl⟩)

/-- No step faults or is refused. -/
theorem step_next (s : State) : ∃ t, step s = .next t := by
  unfold step
  split
  next i rest _ =>
    obtain ⟨t, hexec, -⟩ := exec_effect i (s.setStream rest)
    exact ⟨t, hexec⟩
  next => exact ⟨_, rfl⟩
  next => exact ⟨_, rfl⟩

/-! ### The obligations -/

/-- Settles O48. -/
theorem everyCommandEndsWithAResponse : Obligations.EveryCommandEndsWithAResponse := by
  intro i s
  obtain ⟨t, hexec, heffect⟩ := exec_effect i s
  obtain ⟨r, hr, hcode, hbare, hdata, hvalue⟩ := heffect.response
  exact ⟨t, r, hexec, hr, hcode, hbare, hdata, hvalue⟩

/-- Settles O49. -/
theorem everyStepAnswersANextState : Obligations.EveryStepAnswersANextState := by
  intro s
  obtain ⟨t, hstep⟩ := step_next s
  refine ⟨t, hstep, ?command, ?illegal⟩
  case command =>
    intro i rest hdec
    have heffect := effect_of_exec ((step_of_command hdec).symm.trans hstep)
    obtain ⟨r, hr, -⟩ := heffect.response
    exact ⟨heffect.stream, by simp [hr]⟩
  case illegal =>
    intro why rest hdec
    have ht : step s = .next (answerIllegal rest s) := by rw [step, hdec]
    cases hstep.symm.trans ht
    exact ⟨rfl, rfl⟩

/-- Settles O50. -/
theorem errorsArePrecise : Obligations.ErrorsArePrecise := by
  intro i s t r hexec hr hne
  cases effect_of_exec hexec with
  | refused _ _ he =>
    cases hr
    exact ⟨fun _ _ => rfl, fun h => absurd ((Code.isTransport_iff _).2 h) (by simp [he])⟩
  | commandFailed _ hfailed | dataFailed _ _ _ hfailed =>
    cases hr
    refine ⟨fun htimeout hfault => ?_, fun _ => ⟨_, rfl⟩⟩
    exact ((outcomeCode_of_failed hfailed).elim htimeout hfault).elim
  | crc | opened | closed | status | delivered =>
    cases hr
    exact absurd rfl hne

/-- Settles O29: an error response leaves the two writers of CRC out. -/
theorem onlyInitAndUpdateWriteCrc : Obligations.OnlyInitAndUpdateWriteCrc := by
  refine ⟨fun i s t hexec => (effect_of_exec hexec).crc_eq, ?error⟩
  case error =>
    intro s t r hstep hr hne
    obtain ⟨i, rest, -, -, heffect⟩ | ⟨why, rest, -, rfl⟩ | ⟨-, rfl⟩ := step_cases hstep
    · have hcodes : codesOf i ≠ [.ok] := by
        obtain ⟨r', hr', hshape⟩ := heffect.response
        cases hr.symm.trans hr'
        intro honly
        exact hne (by simpa [honly] using hshape.code_listed)
      exact heffect.crc_eq (fun hi => hcodes (by rw [hi]; rfl)) fun b hi => hcodes (by rw [hi]; rfl)
    · rfl
    · rfl

/-- Settles O43. -/
theorem openSessionKeepsItsConfiguration : Obligations.OpenSessionKeepsItsConfiguration := by
  intro s t hstep hs ht
  obtain ⟨i, rest, -, -, heffect⟩ | ⟨why, rest, -, rfl⟩ | ⟨-, rfl⟩ := step_cases hstep
  · exact heffect.keeps_configuration hs ht
  · exact ⟨rfl, rfl⟩
  · exact ⟨rfl, rfl⟩

/-- Settles O36: a settled outcome is the one the exchange has. -/
theorem linkCmdResult : Obligations.LinkCmdResult := by
  refine ⟨fun w => decodeWord_linkCmd_of_match, ?illegal, fun c s => exec_linkCmd_of_closed, ?status, ?timeout,
    ?fault⟩
  case illegal =>
    intro s w rest hs hop harg16
    exact step_of_reserved hs (decodeWord_linkCmd hop) (beq_false_of_ne harg16)
  case status =>
    intro c status s ds hopen hdraws
    rw [exec_linkCmd_of_status_draw hopen hdraws, statusValue_eq_or, StatusClass.phase_eq_ite]
  case timeout => exact fun c s ds hopen hdraws => exec_linkCmd_of_failed_draw hopen hdraws rfl
  case fault => exact fun c s ds hopen hdraws => exec_linkCmd_of_failed_draw hopen hdraws rfl

end Sys2Proof.Machine
end

