-- ==== Sys2Proof/Proofs/Invariants.lean ====
section
/-! PROOF. What every step keeps: the invariant of the state, the framing discipline, the indifference to the
configuration of a closed link; and that the stream is run in issue order. -/

namespace Sys2Proof.Machine

/-! ### Reset and the image of LINKCFG (10_state.md R16, R26) -/

/-- Settles O10. -/
theorem resetValues : Obligations.ResetValues := by
  unfold Obligations.ResetValues
  decide

/-- Settles O11. -/
theorem resetEventSetsRegistersOnly : Obligations.ResetEventSetsRegistersOnly :=
  fun _ _ _ => rfl

/-- Settles O12. -/
theorem linkcfgLayout : Obligations.LinkcfgLayout := by
  intro c
  refine ⟨?isOpen, ?phase, ?mode, ?reserved, BitVec.extractLsb'_append_eq_left⟩
  case isOpen =>
    simp only [LinkCfg.word, BitVec.getLsbD_append]
    simp
  case phase =>
    simp only [LinkCfg.word, BitVec.getLsbD_append]
    cases c.phase <;> simp [Phase.bit]
  case mode =>
    rw [LinkCfg.word, BitVec.extractLsb'_append_eq_of_add_le (by decide),
      BitVec.extractLsb'_append_eq_of_add_le (by decide)]
    exact BitVec.extractLsb'_append_eq_left
  case reserved =>
    rw [LinkCfg.word, BitVec.extractLsb'_append_eq_of_add_le (by decide)]
    exact BitVec.extractLsb'_append_eq_left

/-! ### The invariant of the state (O52, O53) -/

/-- Settles O52. -/
theorem invAtReset : Obligations.InvAtReset where
  data_needs_session := nofun
  open_clock_in_range := nofun
  faults_exclude_ready_busy := by decide
  error_response_bare := nofun
  transfers_fit := nofun

/-- An exchange record that is legal before and one more that fits. -/
theorem transfers_fit_append {ts : List Transfer} {t : Transfer} (hts : ∀ t ∈ ts, Transfer.Fits t)
    (ht : Transfer.Fits t) : ∀ t' ∈ ts ++ [t], Transfer.Fits t' := by
  intro t' hmem
  rcases List.mem_append.1 hmem with h | h
  · exact hts t' h
  · rwa [List.mem_singleton.1 h]

/-- A command phase is one byte for one byte (41_transport.md R88). -/
theorem fits_command {c : Byte} {o : PeerOutcome} (ho : ∀ rx, o = .ok rx → rx.length = 1) :
    Transfer.Fits ⟨.command, [c], o⟩ :=
  ⟨le_rfl, (by decide : 1 ≤ Config.xchgMax), fun _ => rfl, ho⟩

/-- A data phase of a well-formed `link.xchg` that is not empty (R76). -/
theorem fits_data {tx : List Byte} {o : PeerOutcome} (hne : tx ≠ [])
    (hwf : (Instr.linkXchg tx).wellFormed = true) (ho : ∀ rx, o = .ok rx → rx.length = tx.length) :
    Transfer.Fits ⟨.data, tx, o⟩ :=
  ⟨List.length_pos_iff.2 hne, of_decide_eq_true hwf, nofun, ho⟩

/-- A failed exchange received nothing. -/
theorem ExchangeFailed.ne_ok {o : PeerOutcome} (h : ExchangeFailed o) (rx : List Byte) : o ≠ .ok rx := by
  rintro rfl
  exact not_exchangeFailed_ok rx h

/-- Taking a command off the stream keeps the invariant: it does not speak of the stream. -/
theorem StateInv.setStream {s : State} (h : StateInv s) (rest : List Byte) : StateInv (s.setStream rest) :=
  ⟨h.data_needs_session, h.open_clock_in_range, h.faults_exclude_ready_busy, h.error_response_bare,
    h.transfers_fit⟩

/-- A command that only changes CRC and the response keeps the invariant if a new error response is bare. -/
theorem StateInv.respond {s : State} (h : StateInv s) (c : HalfWord) {r : Response}
    (hr : r.code ≠ .ok → r.value = 0#16 ∧ r.data = []) : StateInv { s with crc := c, response := some r } where
  data_needs_session := h.data_needs_session
  open_clock_in_range := h.open_clock_in_range
  faults_exclude_ready_busy := h.faults_exclude_ready_busy
  error_response_bare := by rintro _ ⟨⟩; exact hr
  transfers_fit := h.transfers_fit

/-- An exchange of legal lengths in an open session keeps the invariant if a new error response is bare. -/
theorem StateInv.endExchange {s : State} (h : StateInv s) (hopen : s.linkcfg.isOpen = true)
    {kind : TransferKind} {tx : List Byte} {o : PeerOutcome} (hfits : Transfer.Fits ⟨kind, tx, o⟩) (p : Phase)
    {r : Response} (hr : r.code ≠ .ok → r.value = 0#16 ∧ r.data = []) :
    StateInv (s.endExchange kind tx o p r) where
  data_needs_session := fun _ => hopen
  open_clock_in_range := h.open_clock_in_range
  faults_exclude_ready_busy := h.faults_exclude_ready_busy
  error_response_bare := by rintro _ ⟨⟩; exact hr
  transfers_fit := transfers_fit_append h.transfers_fit hfits

/-- Every effect of a well-formed command keeps the invariant. -/
theorem Effect.keeps_stateInv {s t : State} {i : Instr} (heffect : Effect s i t) (hwf : i.wellFormed = true)
    (h : StateInv s) : StateInv t := by
  cases heffect with
  | crc => exact h.respond _ (by simp)
  | refused => exact h.respond _ fun _ => ⟨rfl, rfl⟩
  | opened _ hrange =>
    exact ⟨nofun, fun _ => hrange, h.faults_exclude_ready_busy, by rintro _ ⟨⟩; simp, h.transfers_fit⟩
  | closed => exact ⟨nofun, nofun, h.faults_exclude_ready_busy, by rintro _ ⟨⟩; simp, h.transfers_fit⟩
  | commandFailed hopen hfailed =>
    exact h.endExchange hopen (fits_command fun rx hrx => absurd hrx (hfailed.ne_ok rx)) _ fun _ => ⟨rfl, rfl⟩
  | status hopen => exact h.endExchange hopen (fits_command (by rintro _ ⟨⟩; rfl)) _ (by simp)
  | dataFailed hopen hne _ hfailed =>
    exact h.endExchange hopen (fits_data hne hwf fun rx hrx => absurd hrx (hfailed.ne_ok rx)) _
      fun _ => ⟨rfl, rfl⟩
  | delivered hopen hne _ hlen =>
    exact h.endExchange hopen (fits_data hne hwf (by rintro _ ⟨⟩; exact hlen)) _ (by simp)

/-- Settles O53. -/
theorem everyStepKeepsInv : Obligations.EveryStepKeepsInv := by
  intro s t h hstep
  obtain ⟨i, rest, -, hwf, heffect⟩ | ⟨why, rest, -, rfl⟩ | ⟨-, rfl⟩ := step_cases hstep
  · exact heffect.keeps_stateInv hwf (h.setStream rest)
  · exact (h.setStream rest).respond s.crc fun _ => ⟨rfl, rfl⟩
  · exact h

/-! ### The framing discipline (10_state.md R18, 41_transport.md R79) -/

/-- Settles O54. -/
theorem framingAtReset : Obligations.FramingAtReset where
  history_framed := by
    intro before t after hsplit
    cases before <;> cases hsplit
  data_means_ready := nofun

@[simp] theorem phaseAfter_concat (ts : List Transfer) (t : Transfer) :
    phaseAfter (ts ++ [t]) = nextPhase (phaseAfter ts) t := by
  simp [phaseAfter]

/-- A framed history stays framed by one more exchange, unless that is a data phase without a READY before it. -/
theorem Framed.concat {ts : List Transfer} {t : Transfer} (h : Framed ts)
    (ht : t.kind = .data → phaseAfter ts = .data) : Framed (ts ++ [t]) := by
  intro before u after hsplit hkind
  rcases List.eq_nil_or_concat after with rfl | ⟨front, last, rfl⟩
  · obtain ⟨rfl, hlast⟩ := List.append_inj' hsplit rfl
    cases hlast
    exact ht hkind
  · have hsplit' : ts ++ [t] = (before ++ u :: front) ++ [last] := by simpa using hsplit
    obtain ⟨hts, -⟩ := List.append_inj' hsplit' rfl
    exact h before u front hts hkind

/-- The last status was READY exactly if PHASE is DATA after the command phase (R86). -/
theorem nextPhase_status (p : Phase) (faults : List Byte) (c status : Byte) :
    nextPhase p ⟨.command, [c], .ok [status]⟩ = (classify faults status).phase := by
  simp [nextPhase, classify_phase]

/-- A data phase that delivers leaves PHASE as it was (R87). -/
theorem nextPhase_delivered (p : Phase) (tx rx : List Byte) : nextPhase p ⟨.data, tx, .ok rx⟩ = p := rfl

/-- An exchange keeps the discipline if a data phase is made in PHASE DATA only, and PHASE becomes DATA only where
the history says so. -/
theorem FramingInv.endExchange {s : State} (h : FramingInv s) {kind : TransferKind} {tx : List Byte}
    {o : PeerOutcome} {p : Phase} (hkind : kind = .data → s.linkcfg.phase = .data)
    (hp : p = .data → nextPhase (phaseAfter s.transfers) ⟨kind, tx, o⟩ = .data) (r : Response) :
    FramingInv (s.endExchange kind tx o p r) where
  history_framed := h.history_framed.concat fun hdata => h.data_means_ready (hkind hdata)
  data_means_ready := fun hdata => (phaseAfter_concat _ _).trans (hp hdata)

/-- Every effect keeps the framing discipline. -/
theorem Effect.keeps_framingInv {s t : State} {i : Instr} (heffect : Effect s i t) (h : FramingInv s) :
    FramingInv t := by
  cases heffect with
  | crc | refused => exact ⟨h.history_framed, h.data_means_ready⟩
  | opened | closed => exact ⟨h.history_framed, nofun⟩
  | commandFailed => exact h.endExchange (by simp) (by simp) _
  | status => exact h.endExchange (by simp) (fun hp => (nextPhase_status _ _ _ _).trans hp) _
  | dataFailed _ _ hphase => exact h.endExchange (fun _ => hphase) (by simp) _
  | delivered _ _ hphase =>
    exact h.endExchange (fun _ => hphase)
      (fun _ => (nextPhase_delivered _ _ _).trans (h.data_means_ready hphase)) _

/-- Settles O55. -/
theorem everyStepKeepsTheFraming : Obligations.EveryStepKeepsTheFraming := by
  intro s t h hstep
  obtain ⟨i, rest, -, -, heffect⟩ | ⟨why, rest, -, rfl⟩ | ⟨-, rfl⟩ := step_cases hstep
  · exact heffect.keeps_framingInv ⟨h.history_framed, h.data_means_ready⟩
  · exact ⟨h.history_framed, h.data_means_ready⟩
  · exact h

/-! ### The configuration of a closed link (10_state.md R19, R20) -/

/-- In an open session nothing is left to differ. -/
theorem SameButClosedConfig.eq_of_open {s t : State} (h : SameButClosedConfig s t)
    (hopen : s.linkcfg.isOpen = true) : t = s := by
  obtain ⟨hmode, hclk⟩ := h.config hopen
  have hcfg : t.linkcfg = s.linkcfg := by
    rw [LinkCfg.mk.injEq]
    exact ⟨h.isOpen, h.phase, hmode, hclk⟩
  rw [State.mk.injEq]
  exact ⟨h.crc, hcfg, h.lineFaultSet, h.stream, h.response, h.transfers, h.draws, h.drawCount⟩

theorem SameButClosedConfig.refl (s : State) : SameButClosedConfig s s :=
  ⟨rfl, rfl, rfl, fun _ => ⟨rfl, rfl⟩, rfl, rfl, rfl, rfl, rfl, rfl⟩

theorem SameButClosedConfig.setStream {s t : State} (h : SameButClosedConfig s t) (rest : List Byte) :
    SameButClosedConfig (s.setStream rest) (t.setStream rest) :=
  { h with stream := rfl }

/-- The same answer, with the same CRC, keeps two states as alike as they were. -/
theorem SameButClosedConfig.respond {s t : State} (h : SameButClosedConfig s t) (c : HalfWord) (r : Response) :
    SameButClosedConfig { s with crc := c, response := some r } { t with crc := c, response := some r } :=
  { h with crc := rfl, response := rfl }

/-- The same answer without a change of CRC. -/
theorem SameButClosedConfig.answer {s t : State} (h : SameButClosedConfig s t) (r : Response) :
    SameButClosedConfig { s with response := some r } { t with response := some r } :=
  { h with response := rfl }

/-- The same LINK.OPEN makes the configurations the same. -/
theorem SameButClosedConfig.openSession {s t : State} (h : SameButClosedConfig s t) (cfg : LinkCfg) (r : Response) :
    SameButClosedConfig { s with linkcfg := cfg, response := some r } { t with linkcfg := cfg, response := some r } :=
  { h with isOpen := rfl, phase := rfl, config := fun _ => ⟨rfl, rfl⟩, response := rfl }

/-- The CRC commands read CRC only, and that is the same. -/
theorem SameButClosedConfig.exec_crcCommand {s t : State} (h : SameButClosedConfig s t) {i : Instr}
    (hi : isCrcCommand i = true) :
    ∃ s' t', Machine.exec i s = .next s' ∧ Machine.exec i t = .next t' ∧ SameButClosedConfig s' t' := by
  obtain ⟨newCrc, reply, hexec, -⟩ := exec_crcCommand_eq hi
  have ht := hexec t
  rw [h.crc] at ht
  exact ⟨_, _, hexec s, ht, h.respond _ _⟩

/-- On a closed link every command but LINK.OPEN and the CRC commands is refused, and those do not read LINKCFG's
MODE and CLK_KHZ. -/
theorem SameButClosedConfig.exec_of_closed {s t : State} (h : SameButClosedConfig s t)
    (hs : s.linkcfg.isOpen = false) (i : Instr) :
    ∃ s' t', exec i s = .next s' ∧ exec i t = .next t' ∧ SameButClosedConfig s' t' := by
  have ht : t.linkcfg.isOpen = false := h.isOpen.trans hs
  cases i with
  | linkOpen mode khz =>
    cases hk : clockInRange khz with
    | true => exact ⟨_, _, exec_linkOpen_of_inRange hs hk, exec_linkOpen_of_inRange ht hk, h.openSession _ _⟩
    | false => exact ⟨_, _, exec_linkOpen_of_outOfRange hs hk, exec_linkOpen_of_outOfRange ht hk, h.answer _⟩
  | linkClose => exact ⟨_, _, exec_linkClose_of_closed hs, exec_linkClose_of_closed ht, h.answer _⟩
  | linkCmd c => exact ⟨_, _, exec_linkCmd_of_closed hs, exec_linkCmd_of_closed ht, h.answer _⟩
  | linkXchg tx => exact ⟨_, _, exec_linkXchg_of_closed hs, exec_linkXchg_of_closed ht, h.answer _⟩
  | crcInit | crcUpdate | crcRead | crcCheck => exact h.exec_crcCommand rfl

/-- Two states that differ in a closed configuration only run every command alike. -/
theorem SameButClosedConfig.exec {s t : State} (h : SameButClosedConfig s t) (i : Instr) :
    ∃ s' t', exec i s = .next s' ∧ exec i t = .next t' ∧ SameButClosedConfig s' t' := by
  cases hs : s.linkcfg.isOpen with
  | false => exact h.exec_of_closed hs i
  | true =>
    obtain ⟨s', hexec, -⟩ := exec_effect i s
    rw [h.eq_of_open hs]
    exact ⟨s', s', hexec, hexec, .refl s'⟩

/-- Settles O56. -/
theorem closedConfigurationIsUnobservable : Obligations.ClosedConfigurationIsUnobservable := by
  intro s t s' h hstep
  suffices ∃ t', step t = .next t' ∧ SameButClosedConfig s' t' by
    obtain ⟨t', ht, hsame⟩ := this
    exact ⟨t', ht, hsame, hsame.response⟩
  unfold step at hstep ⊢
  rw [h.stream]
  split at hstep
  next i rest _ =>
    obtain ⟨s'', t', hs, ht, hsame⟩ := (h.setStream rest).exec i
    cases hs.symm.trans hstep
    exact ⟨t', ht, hsame⟩
  next rest _ =>
    cases hstep
    exact ⟨_, rfl, (h.setStream rest).answer _⟩
  next =>
    cases hstep
    exact ⟨t, rfl, h⟩

/-! ### Issue order (30_encoding.md R46; 20_memory.md R43) -/

/-- The next state of a command, and that it is the same with any other stream behind the command. -/
def IgnoresStream (i : Instr) (s : State) : Prop :=
  ∃ t, exec i s = .next t ∧ ∀ rest, exec i (s.setStream rest) = .next (t.setStream rest)

theorem linkOpen_ignoresStream (mode : BitVec 2) (khz : HalfWord) (s : State) :
    IgnoresStream (.linkOpen mode khz) s := by
  cases ho : s.linkcfg.isOpen with
  | true => exact ⟨_, exec_linkOpen_of_open ho, fun rest => exec_linkOpen_of_open (s := s.setStream rest) ho⟩
  | false =>
    cases hk : clockInRange khz with
    | true =>
      exact ⟨_, exec_linkOpen_of_inRange ho hk, fun rest => exec_linkOpen_of_inRange (s := s.setStream rest) ho hk⟩
    | false =>
      exact ⟨_, exec_linkOpen_of_outOfRange ho hk,
        fun rest => exec_linkOpen_of_outOfRange (s := s.setStream rest) ho hk⟩

theorem linkClose_ignoresStream (s : State) : IgnoresStream .linkClose s := by
  cases ho : s.linkcfg.isOpen with
  | true => exact ⟨_, exec_linkClose_of_open ho, fun rest => exec_linkClose_of_open (s := s.setStream rest) ho⟩
  | false =>
    exact ⟨_, exec_linkClose_of_closed ho, fun rest => exec_linkClose_of_closed (s := s.setStream rest) ho⟩

theorem linkCmd_ignoresStream (c : Byte) (s : State) : IgnoresStream (.linkCmd c) s := by
  cases ho : s.linkcfg.isOpen with
  | false => exact ⟨_, exec_linkCmd_of_closed ho, fun rest => exec_linkCmd_of_closed (s := s.setStream rest) ho⟩
  | true =>
    obtain hf | ⟨status, hx⟩ := exchangeOutcome_failed_or_status s c
    · exact ⟨_, exec_linkCmd_of_failed ho hf, fun rest => exec_linkCmd_of_failed (s := s.setStream rest) ho hf⟩
    · exact ⟨_, exec_linkCmd_of_status ho hx, fun rest => exec_linkCmd_of_status (s := s.setStream rest) ho hx⟩

theorem linkXchg_ignoresStream (tx : List Byte) (s : State) : IgnoresStream (.linkXchg tx) s := by
  cases ho : s.linkcfg.isOpen with
  | false => exact ⟨_, exec_linkXchg_of_closed ho, fun rest => exec_linkXchg_of_closed (s := s.setStream rest) ho⟩
  | true =>
    by_cases hne : tx = []
    · subst hne
      exact ⟨_, exec_linkXchg_nil ho, fun rest => exec_linkXchg_nil (s := s.setStream rest) ho⟩
    by_cases hp : s.linkcfg.phase = .data
    · obtain hf | ⟨rx, hx, -⟩ := exchangeOutcome_failed_or_ok s tx
      · exact ⟨_, exec_linkXchg_of_failed ho hne hp hf,
          fun rest => exec_linkXchg_of_failed (s := s.setStream rest) ho hne hp hf⟩
      · exact ⟨_, exec_linkXchg_of_ok ho hne hp hx,
          fun rest => exec_linkXchg_of_ok (s := s.setStream rest) ho hne hp hx⟩
    · exact ⟨_, exec_linkXchg_of_idle ho hne hp,
        fun rest => exec_linkXchg_of_idle (s := s.setStream rest) ho hne hp⟩

/-- No command looks at the stream behind it: its next state with another stream is its next state, with that
stream. -/
theorem exec_ignoresStream (i : Instr) (s : State) : IgnoresStream i s := by
  cases i with
  | crcInit => exact ⟨_, exec_crcInit s, fun rest => exec_crcInit (s.setStream rest)⟩
  | crcUpdate b => exact ⟨_, exec_crcUpdate b s, fun rest => exec_crcUpdate b (s.setStream rest)⟩
  | crcRead => exact ⟨_, exec_crcRead s, fun rest => exec_crcRead (s.setStream rest)⟩
  | crcCheck e0 e1 => exact ⟨_, exec_crcCheck e0 e1 s, fun rest => exec_crcCheck e0 e1 (s.setStream rest)⟩
  | linkOpen mode khz => exact linkOpen_ignoresStream mode khz s
  | linkClose => exact linkClose_ignoresStream s
  | linkCmd c => exact linkCmd_ignoresStream c s
  | linkXchg tx => exact linkXchg_ignoresStream tx s

/-- One more step of a run that begins with an answered step. -/
theorem run_succ_of_next (M : Host.Core) {s t : M.State} (n : Nat) (h : M.step s = .next t) :
    M.run (n + 1) s = M.run n t := by
  rw [Host.Core.run, h]

/-- One more command of a sequence. -/
theorem execSeq_cons_of_next {i : Instr} {s t : State} (is : List Instr) (h : exec i s = .next t) :
    execSeq (i :: is) s = execSeq is t := by
  rw [execSeq, h]

/-- A run takes the encoded commands off the stream one by one and leaves what the sequence leaves. -/
theorem run_encodeAll {is : List Instr} (hwf : ∀ i ∈ is, i.wellFormed = true) (rest : List Byte) (s : State) :
    core.run is.length (s.setStream (encodeAll is ++ rest)) = execSeq is (s.setStream rest) := by
  induction is generalizing s with
  | nil => rfl
  | cons i is ih =>
    obtain ⟨hi, his⟩ := List.forall_mem_cons.1 hwf
    obtain ⟨t, -, hexec⟩ := exec_ignoresStream i s
    have hdec : decode (encodeAll (i :: is) ++ rest) = .command i (encodeAll is ++ rest) := by
      rw [encodeAll, List.append_assoc, decode_encode_append _ hi]
    have hstep : step (s.setStream (encodeAll (i :: is) ++ rest)) = .next (t.setStream (encodeAll is ++ rest)) :=
      (step_of_command hdec).trans (hexec _)
    rw [execSeq_cons_of_next _ (hexec rest)]
    exact (run_succ_of_next core is.length hstep).trans (ih his t)

/-- Settles O9. -/
theorem streamRunsInIssueOrder : Obligations.StreamRunsInIssueOrder := by
  intro is rest s hwf hs
  have hself : s.setStream (encodeAll is ++ rest) = s := by rw [← hs]; rfl
  rw [← hself]
  exact run_encodeAll hwf rest s

end Sys2Proof.Machine
end

