-- ==== Sys2Proof/Proofs/ChecksumAlgebra.lean ====
section
/-! PROOF. The algebra of CRC-16/MODBUS (40_checksum.md sections 1 and 4): one data bit at a time, what the register
loses, the residue, error detection, and the `checksum` and `verify` expansions. -/

namespace Sys2Proof.Machine

/-! ### One shift -/

/-- Adding `d` to the register before a shift feeds its bit 0 and adds the rest, shifted, after it. -/
theorem crcShift_xor (c d : HalfWord) : crcShift (c ^^^ d) = crcFeedBit c (d.getLsbD 0) ^^^ (d >>> 1) := by
  simp only [crcShift, crcFeedBit, BitVec.getLsbD_xor, BitVec.ushiftRight_xor_distrib]
  split
  · rw [BitVec.xor_assoc, BitVec.xor_assoc, BitVec.xor_comm (d >>> 1)]
  · rfl

/-- A shift without feedback: bit 0 is 0. -/
theorem crcShift_of_even {c : HalfWord} (h : c.getLsbD 0 = false) : crcShift c = c >>> 1 := by
  rw [crcShift, if_neg (h ▸ Bool.false_ne_true)]

/-- The bit shifted out stands in the top bit of the result: 0xA001 has it, the shifted register has not. -/
theorem crcShift_msb (c : HalfWord) : (crcShift c).getLsbD 15 = c.getLsbD 0 := by
  have hpoly : Config.crcPolyReflected.getLsbD 15 = true := by decide
  have htop : (c >>> 1).getLsbD 15 = false := by simp
  unfold crcShift
  split
  next h => rw [BitVec.getLsbD_xor, htop, hpoly, h]; rfl
  next h => rw [htop, Bool.eq_false_of_not_eq_true h]

/-- A register is its bit 0 and the bits above it. -/
theorem eq_of_bit_zero_of_shift {c d : HalfWord} (h0 : c.getLsbD 0 = d.getLsbD 0) (hs : c >>> 1 = d >>> 1) :
    c = d := by
  apply BitVec.eq_of_getLsbD_eq
  intro i _
  cases i with
  | zero => exact h0
  | succ i =>
    have hi := congrArg (·.getLsbD i) hs
    simpa [BitVec.getLsbD_ushiftRight, Nat.add_comm] using hi

/-- A shift loses nothing: the bit shifted out is read off the top, and then the feedback can be taken back. -/
theorem crcShift_injective : Function.Injective crcShift := by
  intro c d h
  have h0 : c.getLsbD 0 = d.getLsbD 0 := by rw [← crcShift_msb, ← crcShift_msb, h]
  refine eq_of_bit_zero_of_shift h0 ?_
  unfold crcShift at h
  rw [h0] at h
  split at h
  · exact (BitVec.xor_left_inj _).1 h
  · exact h

/-! ### Several shifts -/

theorem crcShifts_injective (n : Nat) : Function.Injective (crcShifts n) := by
  have hiter : crcShifts n = crcShift^[n] := funext (crcShifts_eq_iterate n)
  rw [hiter]
  exact crcShift_injective.iterate n

/-- The low `n` bits of a register, bit 0 first. -/
def lowBits : Nat → HalfWord → List Bool
  | 0, _ => []
  | n + 1, d => d.getLsbD 0 :: lowBits n (d >>> 1)

/-- Adding `d` before `n` shifts feeds its low `n` bits one at a time and adds the rest, shifted, after them. -/
theorem crcShifts_xor (n : Nat) (c d : HalfWord) :
    crcShifts n (c ^^^ d) = crcFeedBits c (lowBits n d) ^^^ (d >>> n) := by
  induction n generalizing c d with
  | zero => simp [crcShifts, lowBits, crcFeedBits]
  | succ n ih =>
    rw [crcShifts, crcShift_xor, ih, ← BitVec.shiftRight_add, Nat.add_comm 1 n]
    rfl

/-- The low bits of a byte are all its bits. -/
theorem lowBits_byte (b : Byte) : lowBits 8 (b.setWidth 16) = bitsLowFirst b := by
  simp [lowBits, bitsLowFirst]

/-- A byte has no bits from bit 8 on. -/
theorem byte_shifted_out (b : Byte) : (b.setWidth 16) >>> 8 = 0#16 := by
  apply BitVec.eq_of_getLsbD_eq
  intro i _
  simp [BitVec.getLsbD_ushiftRight]

/-- Settles O14. -/
theorem crcByteTakesBitZeroFirst : Obligations.CrcByteTakesBitZeroFirst := by
  intro c b
  rw [crcByte, crcShifts_xor, lowBits_byte, byte_shifted_out, BitVec.xor_zero]

/-- Shifts without feedback: the bits shifted out are all 0. -/
theorem crcShifts_of_low_zero {n : Nat} {c : HalfWord} (h : ∀ k < n, c.getLsbD k = false) :
    crcShifts n c = c >>> n := by
  induction n generalizing c with
  | zero => simp [crcShifts]
  | succ n ih =>
    have hshift : ∀ k < n, (c >>> 1).getLsbD k = false := by
      intro k hk
      rw [BitVec.getLsbD_ushiftRight, Nat.add_comm]
      exact h (k + 1) (by omega)
    rw [crcShifts, crcShift_of_even (h 0 (by omega)), ih hshift, ← BitVec.shiftRight_add, Nat.add_comm]

/-! ### One byte -/

theorem crcByte_left_injective {c d : HalfWord} {b : Byte} (h : crcByte c b = crcByte d b) : c = d :=
  (BitVec.xor_left_inj _).1 (crcShifts_injective 8 h)

theorem crcByte_right_injective {c : HalfWord} {a b : Byte} (h : crcByte c a = crcByte c b) : a = b := by
  have hwide : a.setWidth 16 = b.setWidth 16 := (BitVec.xor_right_inj _).1 (crcShifts_injective 8 h)
  have hback := congrArg (·.setWidth 8) hwide
  simpa using hback

/-- Settles O15. -/
theorem crcByteIsInjective : Obligations.CrcByteIsInjective :=
  ⟨fun _ _ _ => crcByte_left_injective, fun _ _ _ => crcByte_right_injective⟩

/-! ### Byte sequences (R70) -/

theorem crcRun_append (c : HalfWord) (a b : List Byte) : crcRun c (a ++ b) = crcRun (crcRun c a) b := by
  simp only [crcRun_eq_foldl, List.foldl_append]

/-- Different registers stay different over the same bytes. -/
theorem crcRun_left_injective {c d : HalfWord} {bytes : List Byte} (h : crcRun c bytes = crcRun d bytes) : c = d := by
  induction bytes generalizing c d with
  | nil => exact h
  | cons b bs ih => exact crcByte_left_injective (ih h)

/-- Two sequences that differ in one byte have different registers. -/
theorem crcRun_one_byte {c : HalfWord} {pre post : List Byte} {a b : Byte}
    (h : crcRun c (pre ++ a :: post) = crcRun c (pre ++ b :: post)) : a = b := by
  rw [crcRun_append, crcRun_append, crcRun_cons, crcRun_cons] at h
  exact crcByte_right_injective (crcRun_left_injective h)

theorem checksum_digits_rotated :
    checksum [0x36#8, 0x37#8, 0x38#8, 0x39#8, 0x31#8, 0x32#8, 0x33#8, 0x34#8, 0x35#8] = 0xADDE#16 := by
  simp [checksum, crcByte, crcShifts, crcShift, Config.crcInitValue, Config.crcPolyReflected]

/-- Settles O17. -/
theorem groupingDoesNotMatterOrderDoes : Obligations.GroupingDoesNotMatterOrderDoes :=
  ⟨fun c a b => (crcRun_append c a b).symm, fun a b => crcRun_append _ a b, checksum_digits,
    checksum_digits_rotated⟩

/-! ### A checksum as its two bytes (20_memory.md R30) -/

/-- The expected value of a register's own two bytes is the register. -/
theorem expectedValue_of_bytes (c : HalfWord) : expectedValue (c.extractLsb' 0 8) (c.extractLsb' 8 8) = c :=
  (BitVec.extractLsb'_append_extractLsb'_eq_extractLsb' rfl).trans BitVec.extractLsb'_eq_self

theorem expectedValue_inj {e0 e1 f0 f1 : Byte} :
    expectedValue e0 e1 = expectedValue f0 f1 ↔ e0 = f0 ∧ e1 = f1 := by
  refine ⟨fun h => ⟨?_, ?_⟩, by rintro ⟨rfl, rfl⟩; rfl⟩
  · rw [← expectedValue_low e0 e1, h, expectedValue_low]
  · rw [← expectedValue_high e0 e1, h, expectedValue_high]

/-- Feeding the register's low byte leaves its high byte. -/
theorem crcByte_low_byte (c : HalfWord) : crcByte c (c.extractLsb' 0 8) = (c.extractLsb' 8 8).setWidth 16 := by
  have hlow : ∀ k < 8, (c ^^^ (c.extractLsb' 0 8).setWidth 16).getLsbD k = false := by
    intro k hk
    have hk16 : k < 16 := by omega
    simp [hk, hk16]
  rw [crcByte, crcShifts_of_low_zero hlow, BitVec.ushiftRight_xor_distrib, byte_shifted_out, BitVec.xor_zero]
  apply BitVec.eq_of_getLsbD_eq
  intro i hi
  rw [BitVec.getLsbD_ushiftRight, BitVec.getLsbD_setWidth, BitVec.getLsbD_extractLsb', decide_eq_true hi,
    Bool.true_and]
  by_cases h8 : i < 8
  · simp [h8]
  · simp [h8, BitVec.getLsbD_of_ge c (8 + i) (by omega)]

/-- Feeding a register that holds one byte this byte leaves 0. -/
theorem crcByte_self (b : Byte) : crcByte (b.setWidth 16) b = 0#16 := by
  rw [crcByte, BitVec.xor_self]
  rfl

/-- Settles O20: the first byte of the checksum leaves its second in the register, and that leaves 0. -/
theorem residueIsZero : Obligations.ResidueIsZero := by
  intro bytes
  have hrun : ∀ tail, checksum (bytes ++ tail) = crcRun (checksum bytes) tail := crcRun_append _ bytes
  rw [hrun, crcRun_cons, crcRun_cons, crcByte_low_byte, crcByte_self, crcRun_nil]

/-! ### Verification (R68, R72, R73) -/

theorem verify_iff (e0 e1 : Byte) (frames : List (List Byte)) :
    verify e0 e1 frames = true ↔ checksum (joinFrames frames) = expectedValue e0 e1 :=
  beq_iff_eq

theorem verify_eq_false_iff (e0 e1 : Byte) (frames : List (List Byte)) :
    verify e0 e1 frames = false ↔ checksum (joinFrames frames) ≠ expectedValue e0 e1 :=
  beq_eq_false_iff_ne

/-- Flipping a bit of a byte changes it. -/
theorem flip_ne (b : Byte) {j : Nat} (hj : j < 8) : b ^^^ (1#8 <<< j) ≠ b := by
  intro h
  have hmask : 1#8 <<< j = 0#8 := by simpa using h
  have hbit := congrArg (·.getLsbD j) hmask
  simp [hj] at hbit

/-- Flipping one bit of one byte of a sequence changes its checksum. -/
theorem checksum_flip_ne {bytes : List Byte} {k j : Nat} (hk : k < bytes.length) (hj : j < 8) :
    checksum (bytes.modify k (fun b => b ^^^ (1#8 <<< j))) ≠ checksum bytes := by
  have hsplit : bytes = bytes.take k ++ bytes[k] :: bytes.drop (k + 1) := by simp
  intro h
  rw [List.modify_eq_take_cons_drop hk] at h
  exact flip_ne bytes[k] hj (crcRun_one_byte (h.trans (congrArg checksum hsplit)))

/-- Settles O18. -/
theorem emptyInputs : Obligations.EmptyInputs := by
  refine ⟨rfl, ?noFrames, ?emptyFrame⟩
  case noFrames =>
    intro e0 e1
    have hinit : checksum (joinFrames []) = expectedValue 0xFF#8 0xFF#8 := by decide
    rw [verify_iff, hinit, expectedValue_inj, eq_comm, @eq_comm _ e1]
  case emptyFrame =>
    intro e0 e1 fs gs
    simp [verify]

/-- Settles O19. -/
theorem singleBitErrorsAreDetected : Obligations.SingleBitErrorsAreDetected := by
  refine ⟨?own, ?covered, ?expected⟩
  case own =>
    intro frames
    rw [verify_iff, expectedValue_of_bytes]
  case covered =>
    intro e0 e1 frames frames' k j hk hj hflip hverify
    rw [verify_iff] at hverify
    rw [verify_eq_false_iff, hflip, ← hverify]
    exact checksum_flip_ne hk hj
  case expected =>
    intro e0 e1 frames j hj hverify
    rw [verify_iff] at hverify
    rw [verify_eq_false_iff, verify_eq_false_iff, hverify, Ne, Ne, expectedValue_inj, expectedValue_inj]
    exact ⟨fun h => flip_ne e0 hj h.1.symm, fun h => flip_ne e1 hj h.2.symm⟩

/-! ### The expansions (30_encoding.md R56, R57) -/

/-- Settles O21. -/
theorem checksumSequenceReturnsChecksum : Obligations.ChecksumSequenceReturnsChecksum :=
  execSeq_checksumSeq

/-- The `verify` expansion answers the comparison, whatever CRC held before (R57, R69). -/
theorem execSeq_verifySeq (e0 e1 : Byte) (frames : List (List Byte)) (s : State) :
    execSeq (verifySeq e0 e1 frames) s =
      .next { s with
        crc := checksum (joinFrames frames)
        response := some ⟨.ok, matchValue (checksum (joinFrames frames)) (expectedValue e0 e1), []⟩ } := by
  have hinit : execSeq (verifySeq e0 e1 frames) s =
      execSeq (crcUpdates (joinFrames frames) ++ [.crcCheck e0 e1])
        { s with crc := Config.crcInitValue, response := some ⟨.ok, 0#16, []⟩ } := rfl
  rw [hinit, execSeq_crcUpdates_concat]
  rfl

/-- Settles O22. -/
theorem verifySequenceAnswersVerify : Obligations.VerifySequenceAnswersVerify :=
  execSeq_verifySeq

/-- Settles O23. -/
theorem updatesContinueFromTheOldValue : Obligations.UpdatesContinueFromTheOldValue :=
  ⟨fun b bytes s => execSeq_crcUpdates (b :: bytes) s, rfl, crcByte_init_zero⟩

end Sys2Proof.Machine
end

