-- ==== Sys2Proof/Proofs/Transactions.lean ====
section
/-! PROOF. The host's transactions (41_transport.md R91 to R94) and the validation of a histogram frame. -/

namespace Sys2Proof.Machine

/-! ### Sequences with settled outcomes -/

theorem classify_ready (faults : List Byte) : classify faults 0xF3#8 = .ready :=
  (classify_eq_ready_iff faults _).2 rfl

theorem classify_busy (faults : List Byte) : classify faults 0x31#8 = .busy := by
  simp [classify, Config.readyCode, Config.busyCode]

/-- A BUSY leaves PHASE IDLE and the session as it was (R86). -/
theorem exec_linkCmd_of_busy {s : State} {ds : List PeerOutcome} (c : Byte) (hopen : s.linkcfg.isOpen = true)
    (hdraws : s.draws = .ok [0x31#8] :: ds) :
    exec (.linkCmd c) s =
      .next { s with
        linkcfg := { s.linkcfg with phase := .idle }
        response := some ⟨.ok, 0x0131#16, []⟩
        transfers := s.transfers ++ [⟨.command, [c], .ok [0x31#8]⟩]
        draws := ds
        drawCount := s.drawCount + 1 } := by
  rw [exec_linkCmd_of_status_draw hopen hdraws, classify_busy]
  rfl

/-- A READY opens a data phase (R86). -/
theorem exec_linkCmd_of_ready {s : State} {ds : List PeerOutcome} (c : Byte) (hopen : s.linkcfg.isOpen = true)
    (hdraws : s.draws = .ok [0xF3#8] :: ds) :
    exec (.linkCmd c) s =
      .next { s with
        linkcfg := { s.linkcfg with phase := .data }
        response := some ⟨.ok, 0x00F3#16, []⟩
        transfers := s.transfers ++ [⟨.command, [c], .ok [0xF3#8]⟩]
        draws := ds
        drawCount := s.drawCount + 1 } := by
  rw [exec_linkCmd_of_status_draw hopen hdraws, classify_ready]
  rfl

/-- After a READY the data phase delivers what the device sends (R87). -/
theorem execSeq_transaction {s : State} {tx rx : List Byte} {ds : List PeerOutcome} (c : Byte)
    (hopen : s.linkcfg.isOpen = true) (hdraws : s.draws = .ok [0xF3#8] :: .ok rx :: ds) (hne : tx ≠ [])
    (hlen : rx.length = tx.length) :
    execSeq [.linkCmd c, .linkXchg tx] s =
      .next { s with
        linkcfg := { s.linkcfg with phase := .data }
        response := some ⟨.ok, 0#16, rx⟩
        transfers := s.transfers ++ [⟨.command, [c], .ok [0xF3#8]⟩, ⟨.data, tx, .ok rx⟩]
        draws := ds
        drawCount := s.drawCount + 2 } := by
  refine (execSeq_cons_of_next _ (exec_linkCmd_of_ready c hopen hdraws)).trans ?_
  rw [execSeq_cons_of_next _ (exec_linkXchg_of_ok_draw (ds := ds) ?isOpen hne rfl rfl hlen)]
  case isOpen => exact hopen
  simp [execSeq]

/-- The histogram read is the transaction of 86 fill bytes (R91). -/
theorem execSeq_histReadSeq {s : State} {frame : List Byte} {ds : List PeerOutcome}
    (hopen : s.linkcfg.isOpen = true) (hdraws : s.draws = .ok [0xF3#8] :: .ok frame :: ds)
    (hlen : frame.length = 86) :
    execSeq histReadSeq s =
      .next { s with
        linkcfg := { s.linkcfg with phase := .data }
        response := some ⟨.ok, 0#16, frame⟩
        transfers := s.transfers ++ [⟨.command, [Config.devCmdHist], .ok [0xF3#8]⟩,
          ⟨.data, List.replicate 86 Config.fillByte, .ok frame⟩]
        draws := ds
        drawCount := s.drawCount + 2 } :=
  execSeq_transaction Config.devCmdHist hopen hdraws (by simp [Config.histFrameLen])
    (by simp [hlen, Config.histFrameLen])

/-- Settles O44. -/
theorem transactionsDeliverTheirFrames : Obligations.TransactionsDeliverTheirFrames := by
  intro s rx ds hopen hdraws
  refine ⟨execSeq_histReadSeq hopen hdraws, ?status, ?switch⟩
  case status =>
    intro hlen
    have hfits : rx.length = (List.replicate 6 Config.fillByte).length := by simp [hlen]
    exact execSeq_transaction Config.devCmdPower hopen hdraws (by simp [Config.powerStatusLen]) hfits
  case switch => exact fun opcode hlen => execSeq_transaction Config.devCmdPower hopen hdraws (by simp) hlen

/-- Settles O46, by induction on the number of BUSY answers: each leaves an open session that has one answer less
to come. -/
theorem busyAnswersDoNotSpoilAReady : Obligations.BusyAnswersDoNotSpoilAReady := by
  intro n c s ds hopen hdraws
  induction n generalizing s with
  | zero =>
    refine (execSeq_cons_of_next _ (exec_linkCmd_of_ready c hopen hdraws)).trans ?_
    simp [execSeq]
  | succ n ih =>
    have hbusy := exec_linkCmd_of_busy c hopen hdraws
    refine (execSeq_cons_of_next _ hbusy).trans ((ih _ ?isOpen rfl).trans ?_)
    case isOpen => exact hopen
    simp [List.replicate_succ, Nat.add_assoc, Nat.add_comm 1]

/-- What follows a sequence that ended in a next state. -/
theorem execSeq_append_of_next {is : List Instr} {s t : State} (js : List Instr) (h : execSeq is s = .next t) :
    execSeq (is ++ js) s = execSeq js t := by
  rw [execSeq_append, h]

/-! ### Validating a frame (R92) -/

/-- The assembler accepts a frame of 86 bytes only (30_encoding.md R59). -/
theorem histValidateSeq_eq_some_iff {frame : List Byte} {cmds : List Instr} :
    histValidateSeq frame = some cmds ↔
      frame.length = 86 ∧ verifySeq (frame.getD 84 0#8) (frame.getD 85 0#8) [histCovered frame] = cmds := by
  simp [histValidateSeq, Config.histFrameLen]

theorem histValidateSeq_eq_none_iff {frame : List Byte} : histValidateSeq frame = none ↔ frame.length ≠ 86 := by
  simp [histValidateSeq, Config.histFrameLen]

/-- A frame of 86 bytes is valid exactly if the checksum of its covered bytes is its trailing one. -/
theorem histValid_iff {frame : List Byte} (hlen : frame.length = 86) :
    histValid frame = true ↔
      checksum (frame.take 84) = expectedValue (frame.getD 84 0#8) (frame.getD 85 0#8) := by
  simp [histValid, hlen, verify, histCovered, Config.histFrameLen, Config.histCoveredLen]

/-- What the validation of a frame leaves, from any state. -/
theorem execSeq_histValidate {frame : List Byte} {cmds : List Instr} (h : histValidateSeq frame = some cmds)
    (s : State) :
    execSeq cmds s =
      .next { s with
        crc := checksum (frame.take 84)
        response := some ⟨.ok, if histValid frame = true then 1#16 else 0#16, []⟩ } := by
  obtain ⟨hlen, rfl⟩ := histValidateSeq_eq_some_iff.1 h
  have hcovered : joinFrames [histCovered frame] = frame.take 84 := by simp [histCovered, Config.histCoveredLen]
  rw [execSeq_verifySeq, hcovered]
  simp only [matchValue, histValid_iff hlen]

/-- Settles O59. -/
theorem histValidateAnswersValidity : Obligations.HistValidateAnswersValidity := by
  intro R
  refine ⟨histValidateSeq_eq_none_iff, fun cmds s h => ⟨_, execSeq_histValidate h s, ?value, ?valid⟩⟩
  case value =>
    simp only [histValid_iff (histValidateSeq_eq_some_iff.1 h).1]
    rfl
  case valid => by_cases hvalid : histValid R = true <;> simp [hvalid]

/-- A histogram read after a validation: the validation leaves the session as it was. -/
theorem execSeq_validate_read {s : State} {frame next : List Byte} {cmds : List Instr} {ds : List PeerOutcome}
    (h : histValidateSeq frame = some cmds) (hopen : s.linkcfg.isOpen = true)
    (hdraws : s.draws = .ok [0xF3#8] :: .ok next :: ds) (hlen : next.length = 86) :
    execSeq (cmds ++ histReadSeq) s =
      .next { s with
        crc := checksum (frame.take 84)
        linkcfg := { s.linkcfg with phase := .data }
        response := some ⟨.ok, 0#16, next⟩
        transfers := s.transfers ++ [⟨.command, [Config.devCmdHist], .ok [0xF3#8]⟩,
          ⟨.data, List.replicate 86 Config.fillByte, .ok next⟩]
        draws := ds
        drawCount := s.drawCount + 2 } := by
  rw [execSeq_append_of_next _ (execSeq_histValidate h s)]
  refine execSeq_histReadSeq ?isOpen ?draws hlen
  case isOpen => exact hopen
  case draws => exact hdraws

/-- Settles O45: the validation changes CRC and the response only, so the second read starts from the same session
as the first, and the second validation from the same frame. -/
theorem aStaleFrameIsReadLikeAFreshOne : Obligations.AStaleFrameIsReadLikeAFreshOne := by
  intro s frame ds validate hopen hvalidate hdraws
  have hlen : frame.length = 86 := (histValidateSeq_eq_some_iff.1 hvalidate).1
  have hfirst := execSeq_histReadSeq hopen hdraws hlen
  refine ⟨_, _, hfirst, rfl, execSeq_validate_read (ds := ds) hvalidate ?isOpen rfl hlen, rfl, rfl, _, _,
    execSeq_histValidate hvalidate _, execSeq_histValidate hvalidate _, rfl, rfl, rfl, rfl⟩
  case isOpen => exact hopen

end Sys2Proof.Machine
end

