-- ==== Sys2Proof/Proofs/Buffers.lean ====
section
/-! PROOF. Buffer reads (20_memory.md R29, R30) and the layout of the histogram frame (R41). -/

namespace Sys2Proof.Machine

/-! ### Little-endian concatenation -/

/-- `join_le` is the number with the bytes as its digits to the base 256, the first the least significant. -/
theorem joinLe_eq_ofDigits (bytes : List Byte) : joinLe bytes = Nat.ofDigits 256 (bytes.map BitVec.toNat) := by
  induction bytes with
  | nil => rfl
  | cons b bs ih => rw [joinLe, List.map_cons, Nat.ofDigits_cons, ih]

/-- n bytes make an unsigned integer of 8 n bits. -/
theorem joinLe_lt (bytes : List Byte) : joinLe bytes < 2 ^ (8 * bytes.length) := by
  have hdigits : ∀ x ∈ bytes.map BitVec.toNat, x < 256 := by
    intro x hx
    obtain ⟨b, -, rfl⟩ := List.mem_map.1 hx
    exact b.isLt
  have hlt := Nat.ofDigits_lt_base_pow_length (by norm_num) hdigits
  rw [← joinLe_eq_ofDigits, List.length_map] at hlt
  rwa [pow_mul]

/-- Byte i counts shifted left by 8 i. -/
theorem joinLe_eq_sum (bytes : List Byte) :
    joinLe bytes = ∑ i ∈ Finset.range bytes.length, (bytes.getD i 0#8).toNat <<< (8 * i) := by
  induction bytes with
  | nil => rfl
  | cons b bs ih =>
    have hshift : ∀ n i, n <<< (8 * (i + 1)) = 256 * n <<< (8 * i) := by
      intro n i
      rw [Nat.shiftLeft_eq, Nat.shiftLeft_eq, Nat.mul_add, pow_add]
      ring
    rw [joinLe, List.length_cons, Finset.sum_range_succ', ih, Finset.mul_sum, Nat.add_comm]
    simp only [List.getD_cons_succ, List.getD_cons_zero, hshift]
    rfl

/-- The bytes a read takes from the buffer. -/
theorem joinLe_drop_take (buf : List Byte) {off n : Nat} (h : off + n ≤ buf.length) :
    joinLe ((buf.drop off).take n) =
      ∑ i ∈ Finset.range n, (buf.getD (off + i) 0#8).toNat <<< (8 * i) := by
  have hlen : ((buf.drop off).take n).length = n := by simp; omega
  rw [joinLe_eq_sum, hlen]
  refine Finset.sum_congr rfl fun i hi => ?_
  have hin : i < n := Finset.mem_range.1 hi
  simp [List.getD_eq_getElem?_getD, hin]

theorem memRead_of_le {buf : List Byte} {off n : Nat} (h : off + n ≤ buf.length) :
    memRead buf off n = some (joinLe ((buf.drop off).take n)) :=
  if_pos h

/-- Settles O57. -/
theorem buffersReadLittleEndian : Obligations.BuffersReadLittleEndian := by
  refine ⟨?sum, by decide, by decide, by decide, ?expected⟩
  case sum =>
    intro buf off n h
    have hlt := joinLe_lt ((buf.drop off).take n)
    have hlen : ((buf.drop off).take n).length = n := by simp; omega
    rw [hlen] at hlt
    rw [memRead_of_le h, ← joinLe_drop_take buf h]
    exact ⟨rfl, hlt⟩
  case expected =>
    intro e0 e1
    rw [memRead_of_le (by simp), expectedValue_toNat]
    simp [joinLe]

/-! ### The histogram frame (R41) -/

/-- An offset lies in a field. -/
def HistField.Covers (f : HistField) (k : Nat) : Prop := f.offset ≤ k ∧ k < f.offset + f.width

/-- The field an offset below 86 lies in, read off R41's layout. -/
def fieldAt (k : Nat) : HistField :=
  if k < 48 then .bin (Fin.ofNat 24 (k / 2))
  else if k < 52 then .timeOfFlight (Fin.ofNat 4 (k - 48))
  else if k < 54 then .samplingTime
  else if k < 56 then .flowRate
  else if k < 58 then .temperature
  else if k < 60 then .humidity
  else if k < 72 then .concentration (Fin.ofNat 3 ((k - 60) / 4))
  else if k < 80 then .reject (Fin.ofNat 4 ((k - 72) / 2))
  else if k < 82 then .fanRevolutions
  else if k < 84 then .laserStatus
  else .checksum

/-- The layout has no gap: every offset lies in its field. -/
theorem fieldAt_covers {k : Nat} (hk : k < 86) : (fieldAt k).Covers k := by
  unfold fieldAt
  split_ifs <;> simp only [HistField.Covers, HistField.offset, HistField.width, Fin.ofNat] <;> omega

/-- Nor an overlap: every byte of a field has that field as its own. -/
theorem fieldAt_offset_add (f : HistField) : ∀ d < f.width, fieldAt (f.offset + d) = f := by
  cases f with
  | bin j | timeOfFlight j | concentration j | reject j =>
    revert j
    decide
  | samplingTime | flowRate | temperature | humidity | fanRevolutions | laserStatus | checksum => decide

theorem eq_fieldAt_of_covers {f : HistField} {k : Nat} (h : f.Covers k) : f = fieldAt k := by
  obtain ⟨hlow, hhigh⟩ := h
  obtain ⟨d, rfl⟩ := Nat.exists_eq_add_of_le hlow
  exact (fieldAt_offset_add f d (by omega)).symm

/-- Settles O58. -/
theorem histogramFieldsTileTheFrame : Obligations.HistogramFieldsTileTheFrame := by
  refine ⟨fun k hk => ⟨fieldAt k, fieldAt_covers hk, fun f => eq_fieldAt_of_covers⟩, ?ends, rfl, rfl⟩
  case ends =>
    intro f
    cases f <;> simp only [HistField.offset, HistField.width] <;> simp <;> omega

end Sys2Proof.Machine
end

