-- ==== Sys2Proof/Proofs/Assembler.lean ====
section
/-! PROOF. What the assembler emits (30_encoding.md R54, R55): one lemma per function that makes commands. -/

namespace Sys2Proof.Machine

/-! ### What may be emitted -/

/-- A well-formed command that is no empty `link.xchg`. -/
def Emittable (i : Instr) : Prop := i.wellFormed = true ∧ i ≠ .linkXchg []

/-- Whatever commands a part of the assembler gives may be emitted. -/
def EmitsCommands (r : Except AsmError (List Instr)) : Prop := ∀ is, r = .ok is → ∀ i ∈ is, Emittable i

theorem emitsCommands_error (e : AsmError) : EmitsCommands (.error e) := nofun

theorem emitsCommands_ok {is : List Instr} (h : ∀ i ∈ is, Emittable i) : EmitsCommands (.ok is) := by
  rintro _ ⟨⟩
  exact h

theorem emitsCommands_single {i : Instr} (h : Emittable i) : EmitsCommands (.ok [i]) :=
  emitsCommands_ok fun _ hj => List.mem_singleton.1 hj ▸ h

/-- Only a `link.xchg` has anything to satisfy. -/
theorem emittable_of_ne_xchg {i : Instr} (h : ∀ tx, i ≠ .linkXchg tx) : Emittable i := by
  refine ⟨?_, h []⟩
  cases i with
  | linkXchg tx => exact absurd rfl (h tx)
  | crcInit | crcUpdate | crcRead | crcCheck | linkOpen | linkClose | linkCmd => rfl

/-! ### The pseudo-instructions over byte sequences (R56, R57, R59) -/

theorem crcUpdates_emittable {bytes : List Byte} {i : Instr} (h : i ∈ crcUpdates bytes) : Emittable i := by
  obtain ⟨b, -, rfl⟩ := List.mem_map.1 h
  exact emittable_of_ne_xchg (by simp)

/-- Initialise, update, and one last command of the CRC unit. -/
theorem crcSequence_emitsCommands {bytes : List Byte} {last : Instr} (h : Emittable last) :
    EmitsCommands (.ok (.crcInit :: (crcUpdates bytes ++ [last]))) := by
  refine emitsCommands_ok fun i hi => ?_
  rcases List.mem_cons.1 hi with rfl | hi
  · exact emittable_of_ne_xchg (by simp)
  rcases List.mem_append.1 hi with hi | hi
  · exact crcUpdates_emittable hi
  · exact List.mem_singleton.1 hi ▸ h

theorem verifySeq_emitsCommands (e0 e1 : Byte) (frames : List (List Byte)) :
    EmitsCommands (.ok (verifySeq e0 e1 frames)) :=
  crcSequence_emitsCommands (emittable_of_ne_xchg (by simp))

theorem checksumOf_emitsCommands (ss : List (List Byte)) : EmitsCommands (checksumOf ss) := by
  unfold checksumOf
  split
  · exact crcSequence_emitsCommands (emittable_of_ne_xchg (by simp))
  all_goals exact emitsCommands_error _

theorem verifyOf_emitsCommands (ss : List (List Byte)) : EmitsCommands (verifyOf ss) := by
  unfold verifyOf
  split
  · exact verifySeq_emitsCommands _ _ _
  all_goals exact emitsCommands_error _

theorem histOf_emitsCommands (ss : List (List Byte)) : EmitsCommands (histOf ss) := by
  unfold histOf
  split
  · next r =>
    cases h : histValidateSeq r with
    | none => exact emitsCommands_error _
    | some cmds =>
      obtain ⟨-, rfl⟩ := histValidateSeq_eq_some_iff.1 h
      exact verifySeq_emitsCommands _ _ _
  all_goals exact emitsCommands_error _

theorem ofSequences_emitsCommands {make : List (List Byte) → Except AsmError (List Instr)}
    (h : ∀ ss, EmitsCommands (make ss)) (cs : List Char) : EmitsCommands (ofSequences make cs) := by
  unfold ofSequences
  split
  · exact h _
  · exact emitsCommands_error _

/-! ### The commands with operands (R54, R55, R58) -/

/-- The one bound the assembler must hold: a payload of 1 to 65535 bytes. -/
theorem xchgOf_emitsCommands (tx : List Byte) : EmitsCommands (xchgOf tx) := by
  unfold xchgOf
  split_ifs with hempty hlen
  · exact emitsCommands_error _
  · refine emitsCommands_single ⟨decide_eq_true hlen, ?_⟩
    rintro ⟨⟩
    exact hempty rfl
  · exact emitsCommands_error _

theorem oneByte_emitsCommands {make : Byte → Instr} (h : ∀ b, Emittable (make b)) (ops : List (List Char)) :
    EmitsCommands (oneByte make ops) := by
  unfold oneByte
  split
  · split
    · exact emitsCommands_single (h _)
    · exact emitsCommands_error _
  all_goals exact emitsCommands_error _

theorem noOperands_emitsCommands {i : Instr} (h : Emittable i) (ops : List (List Char)) :
    EmitsCommands (noOperands [i] ops) := by
  unfold noOperands
  split
  · exact emitsCommands_single h
  · exact emitsCommands_error _

theorem checkOf_emitsCommands (ops : List (List Char)) : EmitsCommands (checkOf ops) := by
  unfold checkOf
  split
  · split
    · exact emitsCommands_single (emittable_of_ne_xchg (by simp))
    all_goals exact emitsCommands_error _
  all_goals exact emitsCommands_error _

theorem openOf_emitsCommands (ops : List (List Char)) : EmitsCommands (openOf ops) := by
  unfold openOf
  split
  · split
    · exact emitsCommands_single (emittable_of_ne_xchg (by simp))
    all_goals exact emitsCommands_error _
  all_goals exact emitsCommands_error _

theorem readOf_emitsCommands (ops : List (List Char)) : EmitsCommands (readOf ops) := by
  unfold readOf
  split
  · split
    · exact xchgOf_emitsCommands _
    all_goals exact emitsCommands_error _
  all_goals exact emitsCommands_error _

/-! ### Lines and texts -/

theorem assembleOperands_emitsCommands (m : Mnemonic) (rest : List Char) :
    EmitsCommands (assembleOperands m rest) := by
  cases m with
  | crcInit | crcRead | linkClose => exact noOperands_emitsCommands (emittable_of_ne_xchg (by simp)) _
  | crcUpdate | linkCmd => exact oneByte_emitsCommands (fun _ => emittable_of_ne_xchg (by simp)) _
  | linkTxn => exact oneByte_emitsCommands (fun _ => emittable_of_ne_xchg (by simp [linkTxn])) _
  | crcCheck => exact checkOf_emitsCommands _
  | linkOpen => exact openOf_emitsCommands _
  | linkXchg =>
    unfold assembleOperands
    dsimp only
    split
    · exact xchgOf_emitsCommands _
    · exact emitsCommands_error _
  | linkRead => exact readOf_emitsCommands _
  | checksum => exact ofSequences_emitsCommands checksumOf_emitsCommands _
  | verify => exact ofSequences_emitsCommands verifyOf_emitsCommands _
  | histValidate => exact ofSequences_emitsCommands histOf_emitsCommands _

theorem assembleCommand_emitsCommands (name rest : List Char) : EmitsCommands (assembleCommand name rest) := by
  unfold assembleCommand
  split
  · exact assembleOperands_emitsCommands _ _
  · exact emitsCommands_error _

theorem assembleLine_emitsCommands (cs : List Char) : EmitsCommands (assembleLine cs) := by
  unfold assembleLine
  dsimp only
  split
  · exact emitsCommands_ok (by simp)
  · exact assembleCommand_emitsCommands _ _

theorem assembleLines_emitsCommands (ls : List (List Char)) : EmitsCommands (assembleLines ls) := by
  induction ls with
  | nil => exact emitsCommands_ok (by simp)
  | cons l ls ih =>
    unfold assembleLines
    split
    next is rest hline hrest =>
      refine emitsCommands_ok fun i hi => ?_
      rcases List.mem_append.1 hi with hi | hi
      · exact assembleLine_emitsCommands l is hline i hi
      · exact ih rest hrest i hi
    all_goals exact emitsCommands_error _

/-- Settles O60. -/
theorem assemblerEmitsCommandsOnly : Obligations.AssemblerEmitsCommandsOnly :=
  fun text => assembleLines_emitsCommands (piecesBy (· == '\n') text)

end Sys2Proof.Machine
end
